-- ==== Sys2Proof/Word.lean ====
section
/-! DEFINITION. The machine word and the byte of the UART's FIFOs (spec/00_scope.md R5, spec/10_state.md R21). -/

namespace Sys2Proof

/-- A Word: an unsigned 16-bit integer, "the native datum of ROM, RAM, and all registers" (R5).
Bit 0 is the least significant bit. Arithmetic on it is modulo 65536. -/
abbrev Word := BitVec 16

/-- A byte of a UART FIFO (R21). -/
abbrev Byte := BitVec 8

end Sys2Proof
end

