-- ==== Sys2Proof/Syntax.lean ====
section
/-! DEFINITION. The abstract syntax: one constructor of `Instr` per row of spec/opcode_table.json
(spec/30_encoding.md), and the mapping entries that `reset` takes (spec/70_reset_and_hazards.md R170). -/

namespace Sys2Proof

/-- The six registers (R10). -/
inductive Reg where
  | a | d | e | f | g | h
deriving DecidableEq, Repr

/-- What a 3-bit `src` or `tgt` code names (R12, R53): nothing, a register, or the RAM-space cell at
the address in `A`, written `*A`. -/
inductive Operand where
  | none
  | reg (r : Reg)
  | starA
deriving DecidableEq, Repr

/-- The fields of a format C word other than `ci` and `op` (R52). `jmp` is the jump mask: bit 2 is
`lt`, bit 1 is `eq`, bit 0 is `gt`. -/
structure Fields where
  src : Operand
  sw : Bool
  zx : Bool
  tgt : Operand
  jmp : BitVec 3
deriving DecidableEq, Repr

/-- The instructions, one constructor per row of spec/opcode_table.json. The last three are the
reserved operation codes (R55): the decoder gives them a constructor of their own and their meaning
raises `InvalidOpcode`, so that every Word decodes (R56). -/
inductive Instr where
  | ldi (imm : Word)
  | and (f : Fields)
  | or (f : Fields)
  | xor (f : Fields)
  | not (f : Fields)
  | lsl (f : Fields)
  | lsr (f : Fields)
  | rol (f : Fields)
  | ror (f : Fields)
  | add (f : Fields)
  | sub (f : Fields)
  | inc (f : Fields)
  | dec (f : Fields)
  | asr (f : Fields)
  | reserved1101 (f : Fields)
  | reserved1110 (f : Fields)
  | reserved1111 (f : Fields)
deriving DecidableEq, Repr

/-- One entry `(rom_addr, length, ram_addr)` of the list of mappings, each field a Word (R170). -/
structure Mapping where
  romAddr : Word
  length : Word
  ramAddr : Word
deriving DecidableEq, Repr

end Sys2Proof
end

