-- ==== Sys2Proof/Decode.lean ====
section
/-! DEFINITION. The decoder and the encoder (spec/30_encoding.md R50 to R59). -/

namespace Sys2Proof

/-- The operand a 3-bit register code names, in `src` and in `tgt` alike (R53). All eight codes are
defined; the last arm is code `111`. -/
def operandOfCode (c : BitVec 3) : Operand :=
  match c.toNat with
  | 0 => .none
  | 1 => .reg .a
  | 2 => .starA
  | 3 => .reg .d
  | 4 => .reg .e
  | 5 => .reg .f
  | 6 => .reg .g
  | _ => .reg .h

/-- The field positions of format C (R52). -/
def decodeFields (w : Word) : Fields :=
  { src := operandOfCode (w.extractLsb' 12 3)
    sw := w.getLsbD 7
    zx := w.getLsbD 6
    tgt := operandOfCode (w.extractLsb' 3 3)
    jmp := w.extractLsb' 0 3 }

/-- The operation a 4-bit code selects (R54, R55). All sixteen codes are listed; the last arm is code
`1111`. -/
def instrOfOp (op : BitVec 4) (f : Fields) : Instr :=
  match op.toNat with
  | 0 => .and f
  | 1 => .or f
  | 2 => .xor f
  | 3 => .not f
  | 4 => .lsl f
  | 5 => .lsr f
  | 6 => .rol f
  | 7 => .ror f
  | 8 => .add f
  | 9 => .sub f
  | 10 => .inc f
  | 11 => .dec f
  | 12 => .asr f
  | 13 => .reserved1101 f
  | 14 => .reserved1110 f
  | _ => .reserved1111 f

/-- The instruction of one Word: bit 15 selects the format (R50); format I carries its immediate in
bits 14 to 0 (R51, R58), format C its operation code in bits 11 to 8 and the fields of R52. Total: a
word with a reserved operation code decodes to the constructor of that code (R55, R56). -/
def decodeWord (w : Word) : Instr :=
  if w.getLsbD 15 then .ldi (w &&& 0x7FFF)
  else instrOfOp (w.extractLsb' 8 4) (decodeFields w)

/-- Why the decoder gives no instruction. -/
inductive DecodeRefusal where
  /-- There is no Word left to decode. Safe: nothing is executed. -/
  | noWord
deriving DecidableEq, Repr

/-- The decoder over a list of Words: the instruction and the Words after it. Every instruction is
exactly one Word (R50). -/
def decode (code : List Word) : Except DecodeRefusal (Instr × List Word) :=
  match code with
  | [] => .error .noWord
  | w :: rest => .ok (decodeWord w, rest)

/-- The Word of which the opcode table gives the low `nbits` bits as `w`, the bits above them zero. -/
def tableWord (nbits w : Nat) : Word :=
  BitVec.ofNat 16 (w % 2 ^ nbits)

/-- The instruction the decoder reads from an instruction whose bits are `w`. -/
def decodeTableWord (nbits w : Nat) : Option Instr :=
  match decode [tableWord nbits w] with
  | .ok r => some r.1
  | .error _ => none

/-- The 3-bit code of an operand (R53). -/
def operandCode (o : Operand) : BitVec 3 :=
  match o with
  | .none => 0b000
  | .reg .a => 0b001
  | .starA => 0b010
  | .reg .d => 0b011
  | .reg .e => 0b100
  | .reg .f => 0b101
  | .reg .g => 0b110
  | .reg .h => 0b111

/-- A format C word: each field of R52 shifted to its place, bit 15 clear. -/
def encodeFormatC (op : BitVec 4) (f : Fields) : Word :=
  (operandCode f.src).setWidth 16 <<< 12 ||| op.setWidth 16 <<< 8
    ||| (BitVec.ofBool f.sw).setWidth 16 <<< 7 ||| (BitVec.ofBool f.zx).setWidth 16 <<< 6
    ||| (operandCode f.tgt).setWidth 16 <<< 3 ||| f.jmp.setWidth 16

/-- A format I word: `0x8000 | imm15` (R70). -/
def encodeFormatI (imm : Word) : Word :=
  0x8000 ||| (imm &&& 0x7FFF)

/-- The Word of an instruction (R51, R52, R54). -/
def encode (i : Instr) : Word :=
  match i with
  | .ldi imm => encodeFormatI imm
  | .and f => encodeFormatC 0b0000 f
  | .or f => encodeFormatC 0b0001 f
  | .xor f => encodeFormatC 0b0010 f
  | .not f => encodeFormatC 0b0011 f
  | .lsl f => encodeFormatC 0b0100 f
  | .lsr f => encodeFormatC 0b0101 f
  | .rol f => encodeFormatC 0b0110 f
  | .ror f => encodeFormatC 0b0111 f
  | .add f => encodeFormatC 0b1000 f
  | .sub f => encodeFormatC 0b1001 f
  | .inc f => encodeFormatC 0b1010 f
  | .dec f => encodeFormatC 0b1011 f
  | .asr f => encodeFormatC 0b1100 f
  | .reserved1101 f => encodeFormatC 0b1101 f
  | .reserved1110 f => encodeFormatC 0b1110 f
  | .reserved1111 f => encodeFormatC 0b1111 f

end Sys2Proof
end

