-- ==== Sys2Proof/Machine/Flags.lean ====
section
/-! DEFINITION. The sign class of an ALU result and the jump arbiter (spec/42_alu_operations.md R106,
spec/43_jump_arbiter.md R110). No flag is stored (R17): the class lives inside one instruction. -/

namespace Sys2Proof.Machine

/-- The sign class of a result (R106). -/
inductive SignClass where
  | lt | eq | gt
deriving DecidableEq, Repr

/-- `SignClass(r)`: `lt` exactly when bit 15 is set, `eq` for zero, `gt` otherwise (R106). PRESUMED by
the spec itself (G2), log entry 7: "signed" is read as two's complement. -/
def signClass (r : Word) : SignClass :=
  if r.getLsbD 15 then .lt else if r = 0 then .eq else .gt

/-- The class as a one-hot jump mask (R110). -/
def SignClass.mask (c : SignClass) : BitVec 3 :=
  match c with
  | .lt => 0b100
  | .eq => 0b010
  | .gt => 0b001

/-- `Taken(jmp, c)`: some selected bit matches the class (R110). -/
def taken (jmp : BitVec 3) (c : SignClass) : Bool :=
  decide (jmp &&& c.mask ≠ 0)

end Sys2Proof.Machine
end

