-- ==== Sys2Proof/Config.lean ====
section
/-! DEFINITION. What is fixed for this hardware, and the parameters the spec leaves OPEN
(spec/00_scope.md R3, R4; spec/92_eei_decisions.md, "Open parameters in one place"). -/

namespace Sys2Proof

/-- The largest legal `ROM_LEN` (R4). -/
abbrev Config.romLenMax : Nat := 65535

/-- The number of RAM cells, addresses `0x0000` to `0xFFFF` (R3, R20). -/
abbrev Config.ramWords : Nat := 65536

/-- The capacity in bytes of each UART FIFO (R3, R125). -/
abbrev Config.fifoCap : Nat := 256

/-- First and last address of the one MMIO range (R3, R36). -/
abbrev Config.mmioLo : Nat := 0x6000

/-- See `Config.mmioLo`. -/
abbrev Config.mmioHi : Nat := 0x6004

/-- The parameters that R3 marks OPEN apart from the program image: the bit positions of the UART's
status and control bits (decision D10) and the reset value of the baud register (decision D16).
They are plain data held in the state, so that a claim about every state is a claim about every
value of them (log entry 3). `oflOw` and `oflIr` are advisory bits that no rule of the device reads
(R136). -/
structure Params where
  iflIo : Fin 16
  iflDa : Fin 16
  iflOr : Fin 16
  oflOw : Fin 16
  oflIr : Fin 16
  oflRu : Fin 16
  baudReset : Word
deriving DecidableEq, Repr

/-- The spec's defaults (R3): positions 2, 1, 0 and 2, 1, 0, baud reset value 0.
DESIGN CHOICE of the spec itself (D10, D16), log entries 3 and 4: unsafe where a claim rests on a
default, because the source gives no positions. -/
def Params.spec : Params :=
  { iflIo := 2, iflDa := 1, iflOr := 0, oflOw := 2, oflIr := 1, oflRu := 0, baudReset := 0 }

end Sys2Proof
end

