-- ==== Sys2Proof/Machine/State.lean ====
section
/-! DEFINITION. The state of the machine as plain data (spec/10_state.md R10 to R25), the reasons a
step or a reset stops, and the state after reset. -/

namespace Sys2Proof.Machine

/-- The six registers (R10). -/
structure Regs where
  a : Word
  d : Word
  e : Word
  f : Word
  g : Word
  h : Word
deriving DecidableEq, Repr

/-- RAM (R20): address and Word of every cell that does not hold zero, addresses rising (see
`Memory.wf`). One address names one whole Word (R31), so a cell is a Word and no byte order is fixed
(log entry 1). A cell that is not listed holds `0x0000`, the value reset gives it (R24). -/
abbrev Memory := List (Nat × Word)

/-- The UART (R21): `inq` is `uart.in`, `outq` is `uart.out`, both head first; `io` is the input
overflow bit; `ctl` is the last Word written to `U_OFL`. -/
structure Uart where
  inq : List Byte
  outq : List Byte
  baud : Word
  io : Bool
  ctl : Word
deriving DecidableEq, Repr

/-- The whole state (R22). `rom` and `params` are the machine's parameters, fixed at reset, which no
step changes (R19, R22); they stand here so that a step is a function of the state alone (log entries
2 and 3). There is no flag, no mode and no halted bit (R16, R17, R161). -/
structure State where
  regs : Regs
  pc : Word
  ram : Memory
  uart : Uart
  rom : List Word
  params : Params
deriving DecidableEq, Repr

/-- The faults a step can raise. -/
inductive Fault where
  /-- `InvalidOpcode(pc, word)`: the word at `pc` has a reserved operation code (R55, R150). Raised by
  the meanings of the three reserved codes. The state is the one before the step (R155). Safe: the
  machine stops as the spec says it does. -/
  | invalidOpcode (pc word : Word)
deriving DecidableEq, Repr

/-- The refusals of a step. -/
inductive Refusal where
  /-- The instruction has no meaning yet. Raised by the dispatcher only; no arm of this model raises
  it. Safe: no claim can rest on a step that did not happen. -/
  | notModelled (mnemonic : String)
deriving DecidableEq, Repr

/-- Why `reset` yields no machine (R173, D2, D21). -/
inductive ResetFailure where
  /-- `ROM_LEN` exceeds 65535 (R4). Raised by `hostReset`. Safe: no run follows it. -/
  | romTooLong
  /-- `MappingOutOfRange` (R154, R173). Raised by `hostReset`. Safe: no run follows it. -/
  | mappingOutOfRange
deriving DecidableEq, Repr

/-- The outcome of executing one instruction. -/
abbrev Result := Host.Outcome State Fault Refusal

/-- The UART after reset (R25): empty, `io` and `ctl` zero, the baud register at its parameter.
DESIGN CHOICE of the spec itself (D16), log entry 4: unsafe. -/
def Uart.fresh (p : Params) : Uart :=
  { inq := [], outq := [], baud := p.baudReset, io := false, ctl := 0 }

/-- The machine after reset with the given parameters and ROM, before any mapping is applied: every
register, the PC and every RAM cell are zero (R23, R24, R25). -/
def State.fresh (p : Params) (rom : List Word) : State :=
  { regs := { a := 0, d := 0, e := 0, f := 0, g := 0, h := 0 }
    pc := 0
    ram := []
    uart := Uart.fresh p
    rom := rom
    params := p }

/-- The machine right after `reset([], [])` with the spec's default parameters. No program is placed:
`ROM` is an input of reset (R170), and with an empty ROM the machine is halted (R175). Log entry 2
says how a program comes to run. -/
def State.reset : State := State.fresh Params.spec []

end Sys2Proof.Machine
end

