-- ==== Sys2Proof/Machine/Ops.lean ====
section
/-! DEFINITION. The named operations over registers, RAM and ROM, and the one way a step stops with a
fault. The UART's registers and the address decoder above them are in Machine/Uart.lean. -/

namespace Sys2Proof.Machine

/-- `x[r]`. -/
def Regs.get (x : Regs) (r : Reg) : Word :=
  match r with
  | .a => x.a
  | .d => x.d
  | .e => x.e
  | .f => x.f
  | .g => x.g
  | .h => x.h

/-- `x[r] <- v`. -/
def Regs.set (x : Regs) (r : Reg) (v : Word) : Regs :=
  match r with
  | .a => { x with a := v }
  | .d => { x with d := v }
  | .e => { x with e := v }
  | .f => { x with f := v }
  | .g => { x with g := v }
  | .h => { x with h := v }

/-- The register `r` of a state. -/
def State.reg (s : State) (r : Reg) : Word := s.regs.get r

/-- The state with register `r` holding `v`. -/
def State.setReg (s : State) (r : Reg) (v : Word) : State :=
  { s with regs := s.regs.set r v }

/-- The state with the PC at `v`. -/
def State.setPc (s : State) (v : Word) : State := { s with pc := v }

/-- What the RAM cell at an address holds: zero where nothing is listed (R24). -/
def Memory.read (m : Memory) (a : Nat) : Word :=
  match m with
  | [] => 0
  | c :: m => if c.1 = a then c.2 else Memory.read m a

/-- The memory with no entry for the address `a`. -/
def Memory.erase (m : Memory) (a : Nat) : Memory :=
  match m with
  | [] => []
  | c :: m => if c.1 = a then Memory.erase m a else c :: Memory.erase m a

/-- The entry `(a, v)` put before the first entry of a higher address. -/
def Memory.insert (m : Memory) (a : Nat) (v : Word) : Memory :=
  match m with
  | [] => [(a, v)]
  | c :: m => if a < c.1 then (a, v) :: c :: m else c :: Memory.insert m a v

/-- `RAM[a] <- v`, in canonical form: storing zero removes the entry. -/
def Memory.write (m : Memory) (a : Nat) (v : Word) : Memory :=
  if v = 0 then m.erase a else (m.erase a).insert a v

/-- The canonical form from the address `lo` on: addresses strictly rising, all below 65536, and no
entry holding zero. -/
def Memory.wfFrom (lo : Nat) (m : Memory) : Bool :=
  match m with
  | [] => true
  | c :: m =>
    decide (lo ≤ c.1) && decide (c.1 < Config.ramWords) && decide (c.2 ≠ 0)
      && Memory.wfFrom (c.1 + 1) m

/-- RAM is in canonical form. -/
def Memory.wf (m : Memory) : Bool := Memory.wfFrom 0 m

/-- The machine is halted exactly when `pc >= ROM_LEN` (R16). -/
def State.halted (s : State) : Bool := decide (s.rom.length ≤ s.pc.toNat)

/-- `RomRead(addr)` (R46). It is only called below `ROM_LEN`, so the default is never read. -/
def State.romRead (s : State) (addr : Word) : Word := s.rom.getD addr.toNat 0

/-- The word the next step executes: none when the machine is halted, else `ROM[pc]` (R46, R75). -/
def State.fetch (s : State) : Option Word :=
  if s.halted then none else some (s.romRead s.pc)

/-- The ROM with `w` at address `a`, lengthened with zero words where it is too short. Used only to
place a word where the next step fetches it (log entry 17). -/
def placeWord (rom : List Word) (a : Nat) (w : Word) : List Word :=
  if a < rom.length then rom.set a w else rom ++ List.replicate (a - rom.length) 0 ++ [w]

/-- Raising `InvalidOpcode(pc, word)` (R150, R155): the step ends in the fault, which reports the PC of
the faulting word and the word. There is no vector, no saved register, no mode change and no stack,
and no state changes: the state of a faulted machine is the state before the step (log entry 5). There
is no return from it (R156). -/
def raiseInvalidOpcode (word : Word) (s : State) : Result :=
  .fault (.invalidOpcode s.pc word)

end Sys2Proof.Machine
end

