-- ==== Sys2Proof/Machine/Uart.lean ====
section
/-! DEFINITION. The UART's five MMIO registers (spec/44_uart_device.md R126 to R137) and the address
decoder that dispatches to them (spec/20_memory.md R33, R34). -/

namespace Sys2Proof.Machine

/-- The five registers of the UART (R126). -/
inductive UartReg where
  | uBaud | uOut | uIn | uIfl | uOfl
deriving DecidableEq, Repr

/-- The UART register at a RAM-space address, if there is one (R36, R126). -/
def mmio (a : Word) : Option UartReg :=
  if a = 0x6000 then some .uBaud
  else if a = 0x6001 then some .uOut
  else if a = 0x6002 then some .uIn
  else if a = 0x6003 then some .uIfl
  else if a = 0x6004 then some .uOfl
  else none

/-- A status bit at its position. -/
def bitAt (b : Bool) (i : Fin 16) : Word :=
  if b then (1 : Word) <<< i.val else 0

/-- The status Word `U_IFL` (R132): `IO`, `DA` set iff `uart.in` is not empty, `OR` set iff `uart.out`
has room; every other bit zero. -/
def Uart.status (p : Params) (u : Uart) : Word :=
  bitAt u.io p.iflIo
    ||| bitAt (decide (0 < u.inq.length)) p.iflDa
    ||| bitAt (decide (u.outq.length < Config.fifoCap)) p.iflOr

/-- `UartRead(i)`: the value read and the device after the read (R127, R128, R130, R132, R134). Only
the read of `U_IN` changes the device (R39): it removes the head of `uart.in`, if there is one. -/
def Uart.read (p : Params) (r : UartReg) (u : Uart) : Word × Uart :=
  match r with
  | .uBaud => (u.baud, u)
  | .uOut => (0, u)
  | .uIn =>
    match u.inq with
    | [] => (0, u)
    | b :: rest => (b.setWidth 16, { u with inq := rest })
  | .uIfl => (u.status p, u)
  | .uOfl => (u.ctl, u)

/-- The device after the byte `b` is enqueued for transmission: dropped when `uart.out` is full (R129). -/
def Uart.enqueueOut (u : Uart) (b : Byte) : Uart :=
  if u.outq.length < Config.fifoCap then { u with outq := u.outq ++ [b] } else u

/-- The device after `U_OFL` is written (R135): the whole Word is kept, and with `RU` set both FIFOs
and the overflow bit are cleared, once. `OW` and `IR` do nothing else (R136). -/
def Uart.writeControl (p : Params) (v : Word) (u : Uart) : Uart :=
  if v.getLsbD p.oflRu.val then { u with ctl := v, inq := [], outq := [], io := false }
  else { u with ctl := v }

/-- `UartWrite(i, v)`: the device after the write (R127, R129, R131, R133, R135). -/
def Uart.write (p : Params) (r : UartReg) (v : Word) (u : Uart) : Uart :=
  match r with
  | .uBaud => { u with baud := v }
  | .uOut => u.enqueueOut (v.setWidth 8)
  | .uIn => u
  | .uIfl => u
  | .uOfl => u.writeControl p v

/-- `MemRead(addr, 1)` through the address decoder (R33): the Word read and the state after the read.
A dispatched read replaces the RAM read (R35). -/
def memRead (addr : Word) (s : State) : Word × State :=
  match mmio addr with
  | some r => ((s.uart.read s.params r).1, { s with uart := (s.uart.read s.params r).2 })
  | none => (s.ram.read addr.toNat, s)

/-- `MemWrite(addr, 1, v)` through the address decoder (R34). A dispatched write replaces the RAM write
(R35). -/
def memWrite (addr v : Word) (s : State) : State :=
  match mmio addr with
  | some r => { s with uart := s.uart.write s.params r v }
  | none => { s with ram := s.ram.write addr.toNat v }

end Sys2Proof.Machine
end

