-- ==== Sys2Proof/Machine/Operands.lean ====
section
/-! DEFINITION. The operand forms of the compute instructions: the source, the normalisation of the
ALU's inputs and the target (spec/41_compute_operands.md R76 to R85). -/

namespace Sys2Proof.Machine

/-- `SourceValue(src, a0)` and the state after it (R77, with `a0` the value of `A` at the start of the
step, R76). The source is resolved once, whatever the other fields are (R78); only `*A` makes a
RAM-space read. -/
def sourceValue (src : Operand) (a0 : Word) (s : State) : Word × State :=
  match src with
  | .none => (0, s)
  | .reg r => (s.reg r, s)
  | .starA => memRead a0 s

/-- `Normalise(s, a0, zx, sw)`: the ALU's inputs `(X, Y)`. `zx` first replaces the source value by zero
(R79), then `sw` exchanges `X` and `Y` (R80, R81). -/
def normalise (v a0 : Word) (zx sw : Bool) : Word × Word :=
  let x := if zx then 0 else v
  if sw then (a0, x) else (x, a0)

/-- `WriteTarget(tgt, a0, r)` (R83, R84, R85): `*A` stores at `a0` through the address decoder, `None`
writes nothing. -/
def writeTarget (tgt : Operand) (a0 r : Word) (s : State) : State :=
  match tgt with
  | .none => s
  | .reg q => s.setReg q r
  | .starA => memWrite a0 r s

end Sys2Proof.Machine
end

