-- ==== Sys2Proof/Machine/Compute.lean ====
section
/-! DEFINITION. What the thirteen compute instructions share: the part of the step from the source read
to the PC update (spec/41_compute_operands.md R75). -/

namespace Sys2Proof.Machine

/-- The ALU's inputs `(X, Y)` of a compute instruction in a state (R77, R81). -/
def aluInputs (f : Fields) (s : State) : Word × Word :=
  normalise (sourceValue f.src (s.reg .a) s).1 (s.reg .a) f.zx f.sw

/-- The PC update, the last effect of the step (R110, R111, R112): a taken jump goes to `A` as it is
after the target write, otherwise the PC advances by one. -/
def arbitrate (jmp : BitVec 3) (r : Word) (s : State) : State :=
  if taken jmp (signClass r) then s.setPc (s.reg .a) else s.setPc (s.pc + 1)

/-- A compute instruction with the ALU function `alu`, in the order source read, ALU, target write, PC
update (R75). -/
def compute (alu : Word → Word → Word) (f : Fields) (s : State) : State :=
  let a0 := s.reg .a
  let xy := aluInputs f s
  let r := alu xy.1 xy.2
  arbitrate f.jmp r (writeTarget f.tgt a0 r (sourceValue f.src a0 s).2)

end Sys2Proof.Machine
end

