-- ==== Sys2Proof/Machine/Arith.lean ====
section
/-! DEFINITION. The arithmetic operations, modulo 65536 (spec/42_alu_operations.md R99 to R102, R105). -/

namespace Sys2Proof.Machine

/-- `add`: `r = u16(X + Y)` (R99). -/
def execAdd (f : Fields) (s : State) : Result := .next (compute (fun x y => x + y) f s)

/-- `sub`: `r = u16(X - Y)`, in that order (R100). -/
def execSub (f : Fields) (s : State) : Result := .next (compute (fun x y => x - y) f s)

/-- `inc`: `r = u16(X + 1)`; `Y` is ignored (R101). -/
def execInc (f : Fields) (s : State) : Result := .next (compute (fun x _ => x + 1) f s)

/-- `dec`: `r = u16(X - 1)`; `Y` is ignored (R102). -/
def execDec (f : Fields) (s : State) : Result := .next (compute (fun x _ => x - 1) f s)

end Sys2Proof.Machine
end

