-- ==== Sys2Proof/Machine/Bitwise.lean ====
section
/-! DEFINITION. The bitwise operations (spec/42_alu_operations.md R91 to R94). -/

namespace Sys2Proof.Machine

/-- `and`: `r = X & Y` (R91). -/
def execAnd (f : Fields) (s : State) : Result := .next (compute (fun x y => x &&& y) f s)

/-- `or`: `r = X | Y` (R92). -/
def execOr (f : Fields) (s : State) : Result := .next (compute (fun x y => x ||| y) f s)

/-- `xor`: `r = X ^ Y` (R93). -/
def execXor (f : Fields) (s : State) : Result := .next (compute (fun x y => x ^^^ y) f s)

/-- `not`: `r = ~X`; `Y` is ignored (R94, R107). -/
def execNot (f : Fields) (s : State) : Result := .next (compute (fun x _ => ~~~x) f s)

end Sys2Proof.Machine
end

