-- ==== Sys2Proof/Machine/Load.lean ====
section
/-! DEFINITION. The immediate load (spec/40_immediate_load.md R70, R71). -/

namespace Sys2Proof.Machine

/-- `ldi`: `A <- word & 0x7FFF`, `pc <- pc + 1`; no RAM-space access, no jump (R70). Only the low 15
bits of the immediate are in the word (R58, R71). -/
def execLdi (imm : Word) (s : State) : Result :=
  .next ((s.setReg .a (imm &&& 0x7FFF)).setPc (s.pc + 1))

end Sys2Proof.Machine
end

