-- ==== Sys2Proof/Machine/Reserved.lean ====
section
/-! DEFINITION. The reserved operation codes (spec/30_encoding.md R55, spec/60_exceptions.md R150). Each
raises `InvalidOpcode` before any operand is read, whatever its other fields are, and reports the word
itself. -/

namespace Sys2Proof.Machine

/-- Operation code `1101` (R55, R104). -/
def execReserved1101 (f : Fields) (s : State) : Result :=
  raiseInvalidOpcode (encode (.reserved1101 f)) s

/-- Operation code `1110` (R55, R104). -/
def execReserved1110 (f : Fields) (s : State) : Result :=
  raiseInvalidOpcode (encode (.reserved1110 f)) s

/-- Operation code `1111` (R55, R104). -/
def execReserved1111 (f : Fields) (s : State) : Result :=
  raiseInvalidOpcode (encode (.reserved1111 f)) s

end Sys2Proof.Machine
end

