-- ==== Sys2Proof/Machine/Shift.lean ====
section
/-! DEFINITION. The shifts and rotates by one position (spec/42_alu_operations.md R95 to R98, R103).
`Y` is ignored by all of them (R107). -/

namespace Sys2Proof.Machine

/-- `lsl`: logical shift left by one (R95). -/
def execLsl (f : Fields) (s : State) : Result := .next (compute (fun x _ => x <<< 1) f s)

/-- `lsr`: logical shift right by one (R96). -/
def execLsr (f : Fields) (s : State) : Result := .next (compute (fun x _ => x >>> 1) f s)

/-- `rol`: rotate left by one, bit 15 into bit 0 (R97). PRESUMED by the spec itself (U6, G1), log entry
6: unsafe. -/
def execRol (f : Fields) (s : State) : Result := .next (compute (fun x _ => x.rotateLeft 1) f s)

/-- `ror`: rotate right by one, bit 0 into bit 15 (R98). PRESUMED by the spec itself (U6, G1), log
entry 6: unsafe. -/
def execRor (f : Fields) (s : State) : Result := .next (compute (fun x _ => x.rotateRight 1) f s)

/-- `asr`: arithmetic shift right by one, bit 15 kept (R103). PRESUMED by the spec itself (G1), log
entry 6: unsafe. -/
def execAsr (f : Fields) (s : State) : Result := .next (compute (fun x _ => x.sshiftRight 1) f s)

end Sys2Proof.Machine
end

