-- ==== Sys2Proof/Machine/Dispatch.lean ====
section
/-! DEFINITION. The dispatcher: one arm per constructor of Instr, each one call of its meaning. -/

namespace Sys2Proof.Machine

/-- The effect of one instruction in a state (spec/41_compute_operands.md R75, after fetch and decode). -/
def exec (i : Instr) (s : State) : Host.Outcome State Fault Refusal :=
  match i with
  | .ldi imm => Sys2Proof.Machine.execLdi imm s
  | .and f => Sys2Proof.Machine.execAnd f s
  | .or f => Sys2Proof.Machine.execOr f s
  | .xor f => Sys2Proof.Machine.execXor f s
  | .not f => Sys2Proof.Machine.execNot f s
  | .lsl f => Sys2Proof.Machine.execLsl f s
  | .lsr f => Sys2Proof.Machine.execLsr f s
  | .rol f => Sys2Proof.Machine.execRol f s
  | .ror f => Sys2Proof.Machine.execRor f s
  | .add f => Sys2Proof.Machine.execAdd f s
  | .sub f => Sys2Proof.Machine.execSub f s
  | .inc f => Sys2Proof.Machine.execInc f s
  | .dec f => Sys2Proof.Machine.execDec f s
  | .asr f => Sys2Proof.Machine.execAsr f s
  | .reserved1101 f => Sys2Proof.Machine.execReserved1101 f s
  | .reserved1110 f => Sys2Proof.Machine.execReserved1110 f s
  | .reserved1111 f => Sys2Proof.Machine.execReserved1111 f s

end Sys2Proof.Machine
end

