-- ==== Sys2Proof/Machine/Step.lean ====
section
/-! DEFINITION. The one transition of the core (spec/41_compute_operands.md R75). -/

namespace Sys2Proof.Machine

/-- `step`: a halted machine changes nothing (R16); otherwise the word at the PC is fetched, decoded and
executed (R75). -/
def step (s : State) : Host.Outcome State Fault Refusal :=
  match s.fetch with
  | none => .next s
  | some w => exec (decodeWord w) s

/-- `s` with the instruction whose low `nbits` bits are `w` placed in ROM where the next step fetches
(log entry 17). ROM is installed from outside the machine (R170), so this stands for that load. -/
def State.withFetchWord (s : State) (nbits w : Nat) : State :=
  { s with rom := placeWord s.rom s.pc.toNat (tableWord nbits w) }

end Sys2Proof.Machine
end

