-- ==== Sys2Proof/Machine/Assembly.lean ====
section
/-! DEFINITION. What the spec keeps of the assembler's surface (spec/30_encoding.md R61 to R64, R66): how
written operands, jump keywords and constants map to fields, masks and reset inputs. No step depends on
it. -/

namespace Sys2Proof.Machine

/-- The operation symbols and their codes (R62). -/
def opOfSymbol (symbol : String) : Option (BitVec 4) :=
  match symbol with
  | "and" => some 0
  | "or" => some 1
  | "xor" => some 2
  | "not" => some 3
  | "lsl" => some 4
  | "lsr" => some 5
  | "rol" => some 6
  | "ror" => some 7
  | "add" => some 8
  | "sub" => some 9
  | "inc" => some 10
  | "dec" => some 11
  | "asr" => some 12
  | _ => none

/-- The jump keywords (R63); a line without one has the mask `000`. -/
inductive JumpKeyword where
  | jlt | jeq | jgt | jle | jge | jne | jmp
deriving DecidableEq, Repr

/-- The mask of a keyword as the source documents it: `JGE` shares `101` with `JNE` (R63,
spec/90_conflicts.md C5). -/
def keywordMask (k : JumpKeyword) : BitVec 3 :=
  match k with
  | .jlt => 0b100
  | .jeq => 0b010
  | .jgt => 0b001
  | .jle => 0b110
  | .jge => 0b101
  | .jne => 0b101
  | .jmp => 0b111

/-- A written operand `P` or `Q` (R64): the literal `0`, `A`, or a source name other than `A`. -/
inductive Written where
  | zero
  | regA
  | ind
  | d | e | f | g | h
deriving DecidableEq, Repr

/-- The source code of a written operand that is neither `0` nor `A`. -/
def writtenSource (p : Written) : Option Operand :=
  match p with
  | .zero => none
  | .regA => none
  | .ind => some .starA
  | .d => some (.reg .d)
  | .e => some (.reg .e)
  | .f => some (.reg .f)
  | .g => some (.reg .g)
  | .h => some (.reg .h)

/-- The fields of `tgt = op, P, Q ; jmp` for a binary operation (R64): none for the operand pairs that
cannot be encoded. The spec's decision D3, log entry 15. -/
def binaryFields (p q : Written) (tgt : Operand) (jmp : BitVec 3) : Option Fields :=
  match p, q with
  | .regA, .regA => some { src := .reg .a, sw := false, zx := false, tgt := tgt, jmp := jmp }
  | .zero, .regA => some { src := .none, sw := false, zx := true, tgt := tgt, jmp := jmp }
  | .regA, .zero => some { src := .none, sw := true, zx := true, tgt := tgt, jmp := jmp }
  | p, .regA =>
    (writtenSource p).map fun o => { src := o, sw := false, zx := false, tgt := tgt, jmp := jmp }
  | .regA, q =>
    (writtenSource q).map fun o => { src := o, sw := true, zx := false, tgt := tgt, jmp := jmp }
  | _, _ => none

/-- The fields of `tgt = op, P ; jmp` for a unary operation (R64). -/
def unaryFields (p : Written) (tgt : Operand) (jmp : BitVec 3) : Fields :=
  match writtenSource p with
  | some o => { src := o, sw := false, zx := false, tgt := tgt, jmp := jmp }
  | none => { src := .none, sw := decide (p = .regA), zx := false, tgt := tgt, jmp := jmp }

/-- The reset inputs of a program with one section of constants: the constants stand in ROM right after
the text, and one mapping copies them to RAM at `addr` (R61). -/
def imageWithConsts (text consts : List Word) (addr : Word) : List Word × List Mapping :=
  (text ++ consts,
    [{ romAddr := BitVec.ofNat 16 text.length, length := BitVec.ofNat 16 consts.length,
       ramAddr := addr }])

/-- A Word as the file formats store it, high byte first (R66). Nothing inside the block has a byte
order (R31). -/
def fileBytes (w : Word) : List Byte :=
  [w.extractLsb' 8 8, w.extractLsb' 0 8]

end Sys2Proof.Machine
end

