-- ==== Sys2Proof/WellFormed.lean ====
section
/-! DEFINITION. The checks on what is given to the machine: instructions, parameters, and the inputs
of `reset`. -/

namespace Sys2Proof

/-- The immediate of `ldi` is at most `0x7FFF` (R51, R58; R60 gives the larger one as the assembler's
`ImmediateTooLarge`). Every combination of the fields of a format C word is legal as a word (R56);
the reserved operation codes are words too, which raise `InvalidOpcode` when executed (R55). -/
def Instr.wellFormed (i : Instr) : Bool :=
  match i with
  | .ldi imm => decide (imm.toNat ≤ 0x7FFF)
  | .and _ => true
  | .or _ => true
  | .xor _ => true
  | .not _ => true
  | .lsl _ => true
  | .lsr _ => true
  | .rol _ => true
  | .ror _ => true
  | .add _ => true
  | .sub _ => true
  | .inc _ => true
  | .dec _ => true
  | .asr _ => true
  | .reserved1101 _ => true
  | .reserved1110 _ => true
  | .reserved1111 _ => true

/-- The bit positions of `U_IFL` are pairwise distinct, and so are those of `U_OFL` (D10). -/
def Params.wellFormed (p : Params) : Bool :=
  decide (p.iflIo ≠ p.iflDa ∧ p.iflIo ≠ p.iflOr ∧ p.iflDa ≠ p.iflOr)
    && decide (p.oflOw ≠ p.oflIr ∧ p.oflOw ≠ p.oflRu ∧ p.oflIr ≠ p.oflRu)

/-- A mapping is in range exactly when `r + l <= ROM_LEN` and `a + l <= 65536`, the sums taken as
unbounded integers (R173). -/
def Mapping.inRange (romLen : Nat) (m : Mapping) : Bool :=
  decide (m.romAddr.toNat + m.length.toNat ≤ romLen)
    && decide (m.ramAddr.toNat + m.length.toNat ≤ Config.ramWords)

/-- `ROM_LEN` is at most 65535 (R4). -/
def romFits (rom : List Word) : Bool :=
  decide (rom.length ≤ Config.romLenMax)

end Sys2Proof
end

