-- ==== Sys2Proof/Machine/Bridge.lean ====
section
/-! DEFINITION. The operations of the other agent, the host (spec/00_scope.md R6): `reset`, `feed_in`
and `drain_out`. They happen only between two steps of the core (spec/44_uart_device.md R140). -/

namespace Sys2Proof.Machine

/-- One byte pushed by the host (R138): appended to `uart.in`, or dropped with `IO` set when it is full. -/
def Uart.push (u : Uart) (b : Byte) : Uart :=
  if u.inq.length < Config.fifoCap then { u with inq := u.inq ++ [b] } else { u with io := true }

/-- `feed_in(bytes)`, byte by byte in order (R138). -/
def feedIn (bytes : List Byte) (s : State) : State :=
  { s with uart := bytes.foldl Uart.push s.uart }

/-- `drain_out()`: the whole content of `uart.out`, oldest first, and the state with it emptied (R139). -/
def drainOut (s : State) : List Byte × State :=
  (s.uart.outq, { s with uart := { s.uart with outq := [] } })

/-- Words stored in RAM from the address `a` upward, ascending (R171). -/
def copyWords (ws : List Word) (a : Nat) (m : Memory) : Memory :=
  match ws with
  | [] => m
  | w :: ws => copyWords ws (a + 1) (m.write a w)

/-- One mapping applied: `RAM[a + i] <- ROM[r + i]` for `i` below `l`, on the raw RAM and not through the
address decoder (R171, R174). -/
def applyMapping (rom : List Word) (m : Mapping) (ram : Memory) : Memory :=
  copyWords ((rom.drop m.romAddr.toNat).take m.length.toNat) m.ramAddr.toNat ram

/-- The mappings applied in list order (R172). -/
def applyMappings (rom : List Word) (maps : List Mapping) (ram : Memory) : Memory :=
  match maps with
  | [] => ram
  | m :: maps => applyMappings rom maps (applyMapping rom m ram)

/-- `reset(rom, mappings)` (R171): every check comes first and a failed reset yields no state (R173);
otherwise everything is zeroed, the ROM installed and the mappings applied. The state before does not
matter, only the parameters of the hardware do. -/
def hostReset (p : Params) (rom : List Word) (maps : List Mapping) : Except ResetFailure State :=
  if romFits rom then
    if maps.all (Mapping.inRange rom.length) then
      .ok { State.fresh p rom with ram := applyMappings rom maps [] }
    else .error .mappingOutOfRange
  else .error .romTooLong

/-- What the host may do between two steps (R6, R140). -/
inductive HostCall where
  | reset (rom : List Word) (maps : List Mapping)
  | feedIn (bytes : List Byte)
  | drainOut
deriving DecidableEq, Repr

/-- The state after a host call: none where a reset fails (R173). -/
def hostCall (c : HostCall) (s : State) : Option State :=
  match c with
  | .reset rom maps =>
    match hostReset s.params rom maps with
    | .ok t => some t
    | .error _ => none
  | .feedIn bytes => some (feedIn bytes s)
  | .drainOut => some (drainOut s).2

end Sys2Proof.Machine
end

