-- ==== Sys2Proof/Safety.lean ====
section
/-! DEFINITION. The terms in which claims about the machine are made: its invariant, the effect of a
compute instruction, the states a program cannot tell apart, and iterated device accesses. -/

namespace Sys2Proof.Machine

/-- The invariant of the machine: RAM in canonical form, both FIFOs within their capacity (R125), a ROM
that fits (R4), bit positions that do not collide (D10). -/
abbrev State.Inv (s : State) : Prop :=
  s.ram.wf = true ∧ s.uart.inq.length ≤ Config.fifoCap ∧ s.uart.outq.length ≤ Config.fifoCap
    ∧ romFits s.rom = true ∧ s.params.wellFormed = true

/-- An address of the MMIO range (R36). -/
abbrev InMmio (a : Nat) : Prop := Config.mmioLo ≤ a ∧ a ≤ Config.mmioHi

/-- A format C word whose `op` is `1101`, `1110` or `1111`, as a bit pattern (R55). -/
abbrev IllegalWord (w : Word) : Prop :=
  w &&& 0x8000 = 0 ∧ (w &&& 0x0F00 = 0x0D00 ∨ w &&& 0x0F00 = 0x0E00 ∨ w &&& 0x0F00 = 0x0F00)

/-- The machine is faulted: not halted, and the word at the PC has a reserved operation code (R156). -/
def State.faulted (s : State) : Bool :=
  match s.fetch with
  | some w => !w.getLsbD 15 && decide (0b1101 ≤ (w.extractLsb' 8 4).toNat)
  | none => false

/-- What one of the two agents does (R6): the core performs a step, or the host makes a call. -/
inductive Event where
  | core
  | host (c : HostCall)
deriving DecidableEq, Repr

/-- The state after an event: a step that stops with a fault changes nothing (R155), and a reset that
fails leaves no state (R173). -/
def perform (e : Event) (s : State) : Option State :=
  match e with
  | .core =>
    match step s with
    | .next t => some t
    | .fault _ => some s
    | .refused _ => some s
  | .host c => hostCall c s

/-- The state after a sequence of steps and host calls in any order (R41, R140). -/
def interleave (es : List Event) (s : State) : Option State :=
  match es with
  | [] => some s
  | e :: es =>
    match perform e s with
    | some t => interleave es t
    | none => none

/-- What a written operand stands for when the instruction begins (R64, R77). -/
def writtenValue (p : Written) (s : State) : Word :=
  match p with
  | .zero => 0
  | .regA => s.reg .a
  | .ind => (memRead (s.reg .a) s).1
  | .d => s.reg .d
  | .e => s.reg .e
  | .f => s.reg .f
  | .g => s.reg .g
  | .h => s.reg .h

/-- The UART after the accesses of a compute instruction with result `r`: the source read, when `src`
is `*A`, then the target write, when `tgt` is `*A`, both at the address in `A` (R77, R84, R87). -/
def uartAfter (f : Fields) (r : Word) (s : State) : Uart :=
  let s1 := if f.src = .starA then (memRead (s.reg .a) s).2 else s
  if f.tgt = .starA then (memWrite (s.reg .a) r s1).uart else s1.uart

/-- Everything a compute instruction with result `r` does to the state, and that it does nothing else:
the target register takes `r` and every other register is unchanged (R83); the PC goes to the `A` of
after the write or to the next word (R111, R112); the RAM cell at the address in `A` takes `r` when the
target is `*A` and no device stands there (R34, R84) and every other cell is unchanged; the UART sees
the accesses of `uartAfter`; ROM and parameters are unchanged (R19). -/
structure ComputeEffect (f : Fields) (r : Word) (s t : State) : Prop where
  regs : ∀ q : Reg, t.reg q = if f.tgt = .reg q then r else s.reg q
  pc : t.pc = if taken f.jmp (signClass r) then t.reg .a else s.pc + 1
  ram : ∀ a : Nat, t.ram.read a =
    if f.tgt = .starA ∧ a = (s.reg .a).toNat ∧ ¬ InMmio a then r else s.ram.read a
  uart : t.uart = uartAfter f r s
  rom : t.rom = s.rom
  params : t.params = s.params

/-- The thirteen compute instructions, each with the result the spec gives it on the ALU's inputs, as
the rules R91 to R103 write it: bit operations on Words, and exact integer arithmetic reduced to 16
bits. -/
def computeOps : List ((Fields → Instr) × (Word → Word → Word)) :=
  [(.and, fun x y => x &&& y),
   (.or, fun x y => x ||| y),
   (.xor, fun x y => x ^^^ y),
   (.not, fun x _ => 0xFFFF ^^^ x),
   (.lsl, fun x _ => BitVec.ofNat 16 (2 * x.toNat)),
   (.lsr, fun x _ => BitVec.ofNat 16 (x.toNat / 2)),
   (.rol, fun x _ => (x <<< 1) ||| (x >>> 15)),
   (.ror, fun x _ => (x >>> 1) ||| ((x &&& 1) <<< 15)),
   (.add, fun x y => BitVec.ofNat 16 (x.toNat + y.toNat)),
   (.sub, fun x y => BitVec.ofInt 16 ((x.toNat : Int) - (y.toNat : Int))),
   (.inc, fun x _ => BitVec.ofNat 16 (x.toNat + 1)),
   (.dec, fun x _ => BitVec.ofInt 16 ((x.toNat : Int) - 1)),
   (.asr, fun x _ => (x >>> 1) ||| (x &&& 0x8000))]

/-- Two states that differ at most in the RAM cells under the UART (R35). -/
def State.agreesOffUart (s t : State) : Prop :=
  s.regs = t.regs ∧ s.pc = t.pc ∧ s.uart = t.uart ∧ s.rom = t.rom ∧ s.params = t.params
    ∧ ∀ a, ¬ InMmio a → s.ram.read a = t.ram.read a

/-- Two outcomes of the same kind, with related states or the same reason. -/
def sameOutcome (rel : State → State → Prop) (x y : Result) : Prop :=
  match x, y with
  | .next s, .next t => rel s t
  | .fault p, .fault q => p = q
  | .refused p, .refused q => p = q
  | _, _ => False

/-- The RAM cell `a` is one a mapping copies to (R171). -/
def coversCell (m : Mapping) (a : Nat) : Prop :=
  m.ramAddr.toNat ≤ a ∧ a < m.ramAddr.toNat + m.length.toNat

/-- The values of `k` reads of `U_IN` one after the other, and the state after them. -/
def readUIn (k : Nat) (s : State) : List Word × State :=
  match k with
  | 0 => ([], s)
  | k + 1 =>
    let p := memRead 0x6002 s
    let q := readUIn k p.2
    (p.1 :: q.1, q.2)

/-- The state after the Words `vs` are written to `U_OUT` one after the other. -/
def writeUOut (vs : List Word) (s : State) : State :=
  match vs with
  | [] => s
  | v :: vs => writeUOut vs (memWrite 0x6001 v s)

end Sys2Proof.Machine
end

