-- ==== Sys2Proof/Certificates/Slice0/Obligations.lean ====
section
/-! DEFINITION. The statements for the provers. Each docstring names the rule of spec/ it rests on. Where a
clause rests on a decision, an inference or general knowledge that the spec marks as its own, the
docstring names the spec's mark and the log entry. -/

open Sys2Proof Sys2Proof.Machine

-- Encoding -------------------------------------------------------------------------------------------

/-- Decoding the encoding of any well-formed instruction gives the instruction back, whatever its
operands are (R50 to R59). -/
def Obligations.DecodeInvertsEncode : Prop :=
  ∀ i : Instr, i.wellFormed = true → decodeWord (encode i) = i

/-- Encoding what the decoder reads from a Word gives the Word back; a Word with bit 15 set decodes to the
immediate of bits 14 to 0; any other decodes to the operation of bits 11 to 8 with the fields at the
positions of R52 (R59 and section 2.1 of spec/95_test_vectors.md). R59 says this of the legal words; that
the 6144 words with a reserved operation code have constructors that encode back too is the model's
choice, log entry 18. -/
def Obligations.EncodeInvertsDecode : Prop :=
  ∀ w : Word,
    encode (decodeWord w) = w
      ∧ (w.getLsbD 15 = true →
          ∃ imm, decodeWord w = .ldi imm ∧ imm.toNat = (w.extractLsb' 0 15).toNat)
      ∧ (w.getLsbD 15 = false →
          ∃ f, decodeWord w = instrOfOp (w.extractLsb' 8 4) f
            ∧ operandCode f.src = w.extractLsb' 12 3 ∧ f.sw = w.getLsbD 7 ∧ f.zx = w.getLsbD 6
            ∧ operandCode f.tgt = w.extractLsb' 3 3 ∧ f.jmp = w.extractLsb' 0 3)

/-- Sample words, written out from the fields of R52 and R53 (spec/95_test_vectors.md section 2.1),
decode to the instructions they stand for. -/
def Obligations.WrittenWordsDecode : Prop :=
  decodeWord 0xFFFF = .ldi 0x7FFF
    ∧ decodeWord 0x8D07 = .ldi 0x0D07
    ∧ decodeWord 0x0A90 = .inc
        { src := .none, sw := true, zx := false, tgt := .starA, jmp := 0b000 }
    ∧ decodeWord 0x3902 = .sub
        { src := .reg .d, sw := false, zx := false, tgt := .none, jmp := 0b010 }
    ∧ decodeWord 0x0158 = .or
        { src := .none, sw := false, zx := true, tgt := .reg .d, jmp := 0b000 }
    ∧ decodeWord 0x6617 = .rol
        { src := .reg .g, sw := false, zx := false, tgt := .starA, jmp := 0b111 }
    ∧ decodeWord 0x2F17 = .reserved1111
        { src := .starA, sw := false, zx := false, tgt := .starA, jmp := 0b111 }

-- The step -------------------------------------------------------------------------------------------

/-- When the machine is not halted, the step is the effect of the instruction that the word at the PC
decodes to, and that instruction is well-formed: nothing is added around `exec` (R75). -/
def Obligations.StepRunsDecodedInstruction : Prop :=
  ∀ (s : State) (w : Word), s.rom[s.pc.toNat]? = some w →
    (decodeWord w).wellFormed = true ∧ step s = exec (decodeWord w) s

/-- A machine with `pc >= ROM_LEN` is halted for ever: any number of steps changes nothing (R16; that
stepping it is no error is the spec's decision D7, log entry 8). -/
def Obligations.HaltedMachineNeverMoves : Prop :=
  ∀ (k : Nat) (s : State), s.rom.length ≤ s.pc.toNat →
    Host.Core.run Sys2Proof.core k s = .next s

/-- A step faults exactly when the machine is not halted and the word at the PC is illegal, and then with
`InvalidOpcode` and nothing else (R55, R150). That the report is the PC and the word is the spec's
decision D5, log entry 5. -/
def Obligations.StepFaultsExactlyOnIllegalWords : Prop :=
  ∀ (s : State) (p : Fault),
    step s = .fault p ↔
      ∃ w, s.rom[s.pc.toNat]? = some w ∧ IllegalWord w ∧ p = .invalidOpcode s.pc w

/-- No step is refused: every word of every ROM has an outcome in every state (U13 of
spec/93_implementation_defined.md). -/
def Obligations.StepNeverRefuses : Prop :=
  ∀ (s : State) (p : Refusal), step s ≠ .refused p

/-- R104: each reserved operation code ends in `InvalidOpcode` whatever its other fields and the state
are. -/
def Obligations.ReservedCodesRaiseInvalidOpcode : Prop :=
  ∀ (f : Fields) (s : State),
    (∃ pc w, exec (.reserved1101 f) s = .fault (.invalidOpcode pc w))
      ∧ (∃ pc w, exec (.reserved1110 f) s = .fault (.invalidOpcode pc w))
      ∧ (∃ pc w, exec (.reserved1111 f) s = .fault (.invalidOpcode pc w))

/-- A machine is faulted exactly when its step faults; it is then not halted, and it stays faulted for any
number of further steps, since a fault changes no state (R156, R157, which the spec marks as derived;
decision D5, log entry 5). -/
def Obligations.FaultedExactlyWhenTheStepFaults : Prop :=
  ∀ s : State,
    (s.faulted = true ↔ ∃ p, step s = .fault p)
      ∧ (s.faulted = true →
          s.halted = false
            ∧ ∀ k : Nat, interleave (List.replicate k Event.core) s = some s)

/-- The PC after a step of a machine whose ROM fits (R4): after an immediate load the next address,
without wrapping; after any other instruction the next address, or the `A` of after the step (R15,
which the spec marks as derived, log entry 16). -/
def Obligations.PcAfterAStep : Prop :=
  ∀ (s t : State) (w : Word),
    romFits s.rom = true → s.rom[s.pc.toNat]? = some w → step s = .next t →
      (w.getLsbD 15 = true → t.pc.toNat = s.pc.toNat + 1)
        ∧ (w.getLsbD 15 = false → t.pc.toNat = s.pc.toNat + 1 ∨ t.pc = t.reg .a)

-- The immediate load ---------------------------------------------------------------------------------

/-- R70: `ldi` loads its 15-bit constant into `A`, advances the PC, and changes nothing else; every word
with bit 15 set is such a load and never faults. -/
def Obligations.LdiLoadsConstantIntoA : Prop :=
  (∀ (imm : Word) (s : State), imm.toNat ≤ 0x7FFF →
    encode (.ldi imm) = 0x8000 ||| imm
      ∧ exec (.ldi imm) s = .next { s with regs := { s.regs with a := imm }, pc := s.pc + 1 })
    ∧ ∀ (w : Word) (s : State), w.getLsbD 15 = true →
        exec (decodeWord w) s =
          .next { s with regs := { s.regs with a := w &&& 0x7FFF }, pc := s.pc + 1 }

-- The compute instructions ---------------------------------------------------------------------------

/-- R91 to R94: `and`, `or`, `xor` and `not` complete in every state with the result the rules give on
the ALU's inputs, and have no other effect than `ComputeEffect`; each has the word pattern of its
rule. -/
def Obligations.BitwiseOperationsCompute : Prop :=
  ∀ (f : Fields) (s : State) (x y : Word), aluInputs f s = (x, y) →
    (encode (.and f) &&& 0x8F00 = 0x0000
        ∧ ∃ t, exec (.and f) s = .next t ∧ ComputeEffect f (x &&& y) s t)
      ∧ (encode (.or f) &&& 0x8F00 = 0x0100
        ∧ ∃ t, exec (.or f) s = .next t ∧ ComputeEffect f (x ||| y) s t)
      ∧ (encode (.xor f) &&& 0x8F00 = 0x0200
        ∧ ∃ t, exec (.xor f) s = .next t ∧ ComputeEffect f (x ^^^ y) s t)
      ∧ (encode (.not f) &&& 0x8F00 = 0x0300
        ∧ ∃ t, exec (.not f) s = .next t ∧ ComputeEffect f (0xFFFF ^^^ x) s t)

/-- R95, R96: `lsl` and `lsr` complete in every state, with the doubled and the halved `X` in 16 bits. -/
def Obligations.LogicalShiftsCompute : Prop :=
  ∀ (f : Fields) (s : State) (x y : Word), aluInputs f s = (x, y) →
    (encode (.lsl f) &&& 0x8F00 = 0x0400
        ∧ ∃ t, exec (.lsl f) s = .next t
          ∧ ComputeEffect f (BitVec.ofNat 16 (2 * x.toNat)) s t)
      ∧ (encode (.lsr f) &&& 0x8F00 = 0x0500
        ∧ ∃ t, exec (.lsr f) s = .next t
          ∧ ComputeEffect f (BitVec.ofNat 16 (x.toNat / 2)) s t)

/-- `rol`, `ror` and `asr` complete in every state, with the bit patterns of R97, R98 and R103. The
bit-level definitions are the spec's own, from general knowledge (G1, U6), log entry 6. -/
def Obligations.RotatesAndArithmeticShiftCompute : Prop :=
  ∀ (f : Fields) (s : State) (x y : Word), aluInputs f s = (x, y) →
    (∃ t, exec (.rol f) s = .next t ∧ ComputeEffect f ((x <<< 1) ||| (x >>> 15)) s t)
      ∧ (∃ t, exec (.ror f) s = .next t
          ∧ ComputeEffect f ((x >>> 1) ||| ((x &&& 1) <<< 15)) s t)
      ∧ (∃ t, exec (.asr f) s = .next t
          ∧ ComputeEffect f (BitVec.ofInt 16 (x.toInt / 2)) s t
          ∧ ComputeEffect f ((x >>> 1) ||| (x &&& 0x8000)) s t)

/-- R99, R100: `add` and `sub` complete in every state, with the exact sum and the exact difference
`X - Y` reduced modulo 65536. -/
def Obligations.AddAndSubCompute : Prop :=
  ∀ (f : Fields) (s : State) (x y : Word), aluInputs f s = (x, y) →
    (encode (.add f) &&& 0x8F00 = 0x0800
        ∧ ∃ t, exec (.add f) s = .next t
          ∧ ComputeEffect f (BitVec.ofNat 16 (x.toNat + y.toNat)) s t)
      ∧ (encode (.sub f) &&& 0x8F00 = 0x0900
        ∧ ∃ t, exec (.sub f) s = .next t
          ∧ ComputeEffect f (BitVec.ofInt 16 ((x.toNat : Int) - (y.toNat : Int))) s t)

/-- R101, R102: `inc` and `dec` complete in every state, with `X + 1` and `X - 1` modulo 65536. -/
def Obligations.IncAndDecCompute : Prop :=
  ∀ (f : Fields) (s : State) (x y : Word), aluInputs f s = (x, y) →
    (encode (.inc f) &&& 0x8F00 = 0x0A00
        ∧ ∃ t, exec (.inc f) s = .next t
          ∧ ComputeEffect f (BitVec.ofNat 16 (x.toNat + 1)) s t)
      ∧ (encode (.dec f) &&& 0x8F00 = 0x0B00
        ∧ ∃ t, exec (.dec f) s = .next t
          ∧ ComputeEffect f (BitVec.ofInt 16 ((x.toNat : Int) - 1)) s t)

/-- R77: the source value of each source code: zero for `None`, the register's value, or what the
address decoder reads at `a0` for `*A`; only `*A` makes an access. -/
def Obligations.SourceValueByCode : Prop :=
  ∀ (a0 : Word) (s : State),
    sourceValue (operandOfCode 0b000) a0 s = (0x0000, s)
      ∧ sourceValue (operandOfCode 0b001) a0 s = (s.regs.a, s)
      ∧ sourceValue (operandOfCode 0b010) a0 s = memRead a0 s
      ∧ sourceValue (operandOfCode 0b011) a0 s = (s.regs.d, s)
      ∧ sourceValue (operandOfCode 0b100) a0 s = (s.regs.e, s)
      ∧ sourceValue (operandOfCode 0b101) a0 s = (s.regs.f, s)
      ∧ sourceValue (operandOfCode 0b110) a0 s = (s.regs.g, s)
      ∧ sourceValue (operandOfCode 0b111) a0 s = (s.regs.h, s)

/-- R79, R80: the four rows of the normalisation table. `zx` replaces the source value by zero and is
applied first, `sw` exchanges `X` and `Y`. -/
def Obligations.NormalisationTable : Prop :=
  ∀ v a0 : Word,
    normalise v a0 false false = (v, a0)
      ∧ normalise v a0 false true = (a0, v)
      ∧ normalise v a0 true false = (0x0000, a0)
      ∧ normalise v a0 true true = (a0, 0x0000)

/-- The `*A` source is read whatever `zx`, `sw`, `tgt` and `jmp` are: with `A` at `U_IN` each of the
thirteen instructions removes the head of `uart.in`; and with a source other than `*A` and a target
other than `*A` it leaves the UART as it is. The spec's decision D19 (R78), log entry 12. -/
def Obligations.SourceReadHappensWhateverTheFlags : Prop :=
  ∀ p ∈ computeOps, ∀ (f : Fields) (s : State), ∃ t, exec (p.1 f) s = .next t
    ∧ (f.src = .starA → s.reg .a = 0x6002 → t.uart = { s.uart with inq := s.uart.inq.tail })
    ∧ (f.src ≠ .starA → f.tgt ≠ .starA → t.uart = s.uart)

/-- R86, R110, R111: a compute instruction whose mask has a bit in common with the class of its result
(`100` negative, `010` zero, `001` positive) sets the PC to `A` as it is after the target write: the
result itself when `A` is the target, the old `A` otherwise. -/
def Obligations.TakenJumpGoesToPostWriteA : Prop :=
  ∀ p ∈ computeOps, ∀ (f : Fields) (s : State) (r : Word),
    r = p.2 (aluInputs f s).1 (aluInputs f s).2 →
    f.jmp &&& (match signClass r with | .lt => 0b100 | .eq => 0b010 | .gt => 0b001) ≠ 0#3 →
    ∃ t, exec (p.1 f) s = .next t
      ∧ t.pc = t.reg .a ∧ t.reg .a = if f.tgt = .reg .a then r else s.reg .a

/-- R114: a compute instruction with the mask `111` jumps whatever its result is, and the canonical one,
the word `0x0007`, changes only the PC. -/
def Obligations.Mask111JumpsUnconditionally : Prop :=
  (∀ p ∈ computeOps, ∀ (f : Fields) (s : State), f.jmp = 0b111 →
    ∃ t, exec (p.1 f) s = .next t ∧ t.pc = t.reg .a)
    ∧ ∀ s : State, exec (decodeWord 0x0007) s = .next { s with pc := s.regs.a }

/-- A taken jump to an address at or beyond `ROM_LEN` is no fault: the PC takes that value unclamped and
the machine is halted (R117, the spec's decision D6, log entry 16). -/
def Obligations.JumpBeyondRomHalts : Prop :=
  ∀ p ∈ computeOps, ∀ (f : Fields) (s : State) (r goal : Word),
    r = p.2 (aluInputs f s).1 (aluInputs f s).2 →
    taken f.jmp (signClass r) = true →
    (goal = if f.tgt = .reg .a then r else s.reg .a) → s.rom.length ≤ goal.toNat →
      ∃ t, exec (p.1 f) s = .next t ∧ t.pc = goal ∧ t.halted = true ∧ step t = .next t

/-- Source `*A` and target `*A` together, the read before the write, at every kind of address (R87). `v` is
what the read gives: the cell's old content on plain RAM, and at `0x6000` to `0x6004` the old baud
register, zero, the head of `uart.in` (zero if it is empty), the status Word and the old control Word. `r`
is the result computed from it, on which the jump is decided. The write stores `r` in the cell or in the
baud register, enqueues its low byte, is ignored at `0x6002` and `0x6003`, or writes the control register
with `RU` acting. No register changes. That the RAM cell under a device is not touched is the spec's
decision D8, log entry 13; the widening at `U_IN` and the silent loss at `U_OUT` are D15 and D24, log
entry 10; the bits of `U_IFL`, its ignored write and the control register are D10 to D14, log entries 3
and 9. -/
def Obligations.StarASourceAndTargetReadBeforeWrite : Prop :=
  ∀ p ∈ computeOps, ∀ (f : Fields) (s : State) (v x y r : Word),
    f.src = .starA → f.tgt = .starA → v = (memRead (s.reg .a) s).1 →
    normalise v (s.reg .a) f.zx f.sw = (x, y) → r = p.2 x y →
    ∃ t, exec (p.1 f) s = .next t ∧ t.regs = s.regs
      ∧ t.pc = (if taken f.jmp (signClass r) then s.reg .a else s.pc + 1)
      ∧ (¬ InMmio (s.reg .a).toNat →
          v = s.ram.read (s.reg .a).toNat ∧ t.uart = s.uart
            ∧ ∀ b, t.ram.read b = if b = (s.reg .a).toNat then r else s.ram.read b)
      ∧ (InMmio (s.reg .a).toNat → t.ram = s.ram)
      ∧ (s.reg .a = 0x6000 → v = s.uart.baud ∧ t.uart = { s.uart with baud := r })
      ∧ (s.reg .a = 0x6001 →
          v = 0x0000 ∧ t.uart =
            if s.uart.outq.length < 256
            then { s.uart with outq := s.uart.outq ++ [r.setWidth 8] } else s.uart)
      ∧ (s.reg .a = 0x6002 →
          v = BitVec.ofNat 16 (s.uart.inq.headD 0).toNat
            ∧ t.uart = { s.uart with inq := s.uart.inq.tail })
      ∧ (s.reg .a = 0x6003 → v = s.uart.status s.params ∧ t.uart = s.uart)
      ∧ (s.reg .a = 0x6004 →
          v = s.uart.ctl ∧ t.uart =
            if r.getLsbD s.params.oflRu.val
            then { s.uart with ctl := r, inq := [], outq := [], io := false }
            else { s.uart with ctl := r })

/-- Each of the thirteen instructions with `tgt = None`, mask `000` and a source other than `*A` only
advances the PC (R57, which the spec marks as derived). -/
def Obligations.NoTargetNoJumpOnlyAdvancesPc : Prop :=
  ∀ p ∈ computeOps, ∀ (f : Fields) (s : State),
    f.tgt = .none → f.jmp = 0b000 → f.src ≠ .starA →
      exec (p.1 f) s = .next { s with pc := s.pc + 1 }

-- Sign class and jump arbiter ------------------------------------------------------------------------

/-- The class of a result is the sign of its two's complement reading. That "signed" means two's
complement is the spec's own, from general knowledge (G2), log entry 7. -/
def Obligations.SignClassIsTheSign : Prop :=
  ∀ r : Word,
    (signClass r = .lt ↔ r.toInt < 0) ∧ (signClass r = .eq ↔ r.toInt = 0)
      ∧ (signClass r = .gt ↔ 0 < r.toInt)

/-- What each of the eight masks tests, as conditions on the signed result (the table of R113, with the
reading of "signed" of G2, log entry 7). -/
def Obligations.JumpMaskConditions : Prop :=
  ∀ r : Word,
    taken 0b000 (signClass r) = false
      ∧ taken 0b001 (signClass r) = decide (0 < r.toInt)
      ∧ taken 0b010 (signClass r) = decide (r.toInt = 0)
      ∧ taken 0b011 (signClass r) = decide (0 ≤ r.toInt)
      ∧ taken 0b100 (signClass r) = decide (r.toInt < 0)
      ∧ taken 0b101 (signClass r) = decide (r.toInt ≠ 0)
      ∧ taken 0b110 (signClass r) = decide (r.toInt ≤ 0)
      ∧ taken 0b111 (signClass r) = true

/-- `sub` of a register and `A` as a comparison: the mask `010` jumps exactly when they are equal, and the
mask `100` jumps exactly when the register is the smaller as a signed number, provided the true
difference fits in 16 bits (R120, which the spec marks as derived; G2, log entry 7). -/
def Obligations.SubComparesWithinRange : Prop :=
  ∀ (q : Reg) (s : State) (x y : Word), s.reg q = x → s.reg .a = y →
    (∃ t, exec (.sub { src := .reg q, sw := false, zx := false, tgt := .none, jmp := 0b010 }) s
        = .next t ∧ t.pc = if x = y then y else s.pc + 1)
      ∧ (-32768 ≤ x.toInt - y.toInt → x.toInt - y.toInt ≤ 32767 →
          ∃ t, exec (.sub { src := .reg q, sw := false, zx := false, tgt := .none, jmp := 0b100 }) s
            = .next t ∧ t.pc = if x.toInt < y.toInt then y else s.pc + 1)

/-- The table of R64. A written pair can be encoded exactly when one of its operands is `A`: the five
binary rows have the fields of the table, and the other pairs (`op, 0, S`, `op, S, S'`, `op, 0, 0`, `op, S, 0`)
have none. Under its fields `op, P, Q` reaches the ALU as `X = P` and `Y = Q`, and `op, P` of a unary operation,
which has fields for every `P`, as `X = P`; target and mask are the written ones (R64, the spec's decision
D3, log entry 15). -/
def Obligations.WrittenOperandsReachTheAlu : Prop :=
  ∀ (p q : Written) (tgt : Operand) (jmp : BitVec 3) (s : State),
    ((binaryFields p q tgt jmp).isSome = true ↔ p = .regA ∨ q = .regA)
      ∧ (∀ f, binaryFields p q tgt jmp = some f →
          aluInputs f s = (writtenValue p s, writtenValue q s) ∧ f.tgt = tgt ∧ f.jmp = jmp)
      ∧ ((writtenSource p).isSome = true ↔ p ≠ .zero ∧ p ≠ .regA)
      ∧ (∀ o, writtenSource p = some o →
          binaryFields p .regA tgt jmp = some ⟨o, false, false, tgt, jmp⟩
            ∧ binaryFields .regA p tgt jmp = some ⟨o, true, false, tgt, jmp⟩
            ∧ unaryFields p tgt jmp = ⟨o, false, false, tgt, jmp⟩)
      ∧ binaryFields .zero .regA tgt jmp = some ⟨.none, false, true, tgt, jmp⟩
      ∧ binaryFields .regA .zero tgt jmp = some ⟨.none, true, true, tgt, jmp⟩
      ∧ binaryFields .regA .regA tgt jmp = some ⟨.reg .a, false, false, tgt, jmp⟩
      ∧ unaryFields .regA tgt jmp = ⟨.none, true, false, tgt, jmp⟩
      ∧ unaryFields .zero tgt jmp = ⟨.none, false, false, tgt, jmp⟩
      ∧ (aluInputs (unaryFields p tgt jmp) s).1 = writtenValue p s
      ∧ (unaryFields p tgt jmp).tgt = tgt ∧ (unaryFields p tgt jmp).jmp = jmp

-- Memory and the address decoder ---------------------------------------------------------------------

/-- At `0x6000` to `0x6004` the decoder reads and writes the UART register of that index (R33, R34) and
not RAM; at every other address it reads and writes the RAM cell, and a read changes nothing. That a
device access leaves the RAM cell under it alone is the inference of R35, the spec's decision D8, log
entry 13. -/
def Obligations.AddressDecoderDispatch : Prop :=
  ∀ (a v : Word) (s : State),
    (∀ u, [UartReg.uBaud, .uOut, .uIn, .uIfl, .uOfl][a.toNat - 0x6000]? = some u →
        0x6000 ≤ a.toNat →
          memRead a s = ((s.uart.read s.params u).1, { s with uart := (s.uart.read s.params u).2 })
            ∧ memWrite a v s = { s with uart := s.uart.write s.params u v })
      ∧ (¬ InMmio a.toNat →
          memRead a s = (s.ram.read a.toNat, s)
            ∧ memWrite a v s = { s with ram := s.ram.write a.toNat v })

/-- A Word written to an address outside the MMIO range is what the next read of it gives, and every
other RAM cell reads as before (R34, R41). -/
def Obligations.RamReadsWhatWasLastWritten : Prop :=
  ∀ (a v : Word) (s : State), ¬ InMmio a.toNat →
    (memRead a (memWrite a v s)).1 = v
      ∧ ∀ b : Nat, b ≠ a.toNat → (memWrite a v s).ram.read b = s.ram.read b

/-- The RAM cells under the UART keep their value in every step (R35, the spec's decision D8, log entry
13). -/
def Obligations.ShadowedCellsKeepTheirValue : Prop :=
  ∀ s t : State, step s = .next t → ∀ a, InMmio a → t.ram.read a = s.ram.read a

/-- The content of the RAM cells under the UART makes no difference to any run of a program: from two
states that differ only there, any number of steps ends in the same fault or in states that again
differ only there (R35, the spec's decision D8, log entry 13). -/
def Obligations.ShadowedCellsAreInvisible : Prop :=
  ∀ (k : Nat) (s t : State), s.agreesOffUart t →
    sameOutcome State.agreesOffUart
      (Host.Core.run Sys2Proof.core k s) (Host.Core.run Sys2Proof.core k t)

/-- A step changes at most one RAM cell, the one at the address that `A` holds when the step begins, and
only when the word at the PC is a compute instruction with target `*A` (R40, R84). -/
def Obligations.StepWritesAtMostTheCellAtA : Prop :=
  ∀ s t : State, step s = .next t → ∀ a, t.ram.read a ≠ s.ram.read a →
    a = (s.reg .a).toNat
      ∧ ∃ w, s.rom[s.pc.toNat]? = some w ∧ w.getLsbD 15 = false ∧ w.extractLsb' 3 3 = 0b010

/-- R44: no store changes what is fetched, and no step changes ROM. -/
def Obligations.StoresNeverAffectFetch : Prop :=
  (∀ (a v : Word) (s : State), (memWrite a v s).fetch = s.fetch)
    ∧ ∀ s t : State, step s = .next t → t.rom = s.rom

/-- A read through the address decoder changes nothing unless its address is `0x6002`; there it removes
the head of `uart.in` and changes nothing else (R39, which the spec marks as derived). -/
def Obligations.OnlyUInReadHasSideEffect : Prop :=
  ∀ (a : Word) (s : State),
    (a ≠ 0x6002 → (memRead a s).2 = s)
      ∧ (a = 0x6002 →
          (memRead a s).2 = { s with uart := { s.uart with inq := s.uart.inq.tail } })

-- The UART -------------------------------------------------------------------------------------------

/-- `U_BAUD` reads as the baud register and stores the whole Word, with no other effect (R127, which
rests on the spec's decision D18, log entry 11). -/
def Obligations.BaudRegisterReadsAndStores : Prop :=
  ∀ (v : Word) (s : State),
    memRead 0x6000 s = (s.uart.baud, s)
      ∧ memWrite 0x6000 v s = { s with uart := { s.uart with baud := v } }

/-- R128: `U_OUT` reads as zero and the read changes nothing. -/
def Obligations.UOutReadsZero : Prop :=
  ∀ s : State, memRead 0x6001 s = (0x0000, s)

/-- A write to `U_OUT` appends the low byte to `uart.out` when there is room and otherwise does nothing
at all (R129; that nothing records the loss is the spec's decision D24, log entry 10). -/
def Obligations.UOutWriteEnqueuesLowByte : Prop :=
  ∀ (v : Word) (s : State),
    (s.uart.outq.length < 256 →
        memWrite 0x6001 v s =
          { s with uart := { s.uart with outq := s.uart.outq ++ [v.extractLsb' 0 8] } })
      ∧ (256 ≤ s.uart.outq.length → memWrite 0x6001 v s = s)

/-- A read of `U_IN` gives the head of `uart.in` widened with zeros and removes it, or gives zero when
the FIFO is empty (R130; the widening is the spec's decision D15, log entry 10). -/
def Obligations.UInReadDequeues : Prop :=
  ∀ s : State,
    (s.uart.inq = [] → memRead 0x6002 s = (0x0000, s))
      ∧ ∀ b rest, s.uart.inq = b :: rest →
          memRead 0x6002 s =
            (BitVec.ofNat 16 b.toNat, { s with uart := { s.uart with inq := rest } })

/-- R131: a write to `U_IN` is ignored. -/
def Obligations.UInWriteIsIgnored : Prop :=
  ∀ (v : Word) (s : State), memWrite 0x6002 v s = s

/-- `U_IFL` reads with `IO`, `DA` and `OR` at their positions and zero in every other bit, and neither a
read nor a write of it changes anything (R132, R133; the positions, the other bits and the ignored
write are the spec's decisions D10, D11, D12, log entries 3 and 9). -/
def Obligations.StatusRegisterBits : Prop :=
  ∀ s : State, s.params.wellFormed = true →
    (∀ i : Fin 16,
      (memRead 0x6003 s).1.getLsbD i.val =
        if i = s.params.iflIo then s.uart.io
        else if i = s.params.iflDa then decide (s.uart.inq ≠ [])
        else if i = s.params.iflOr then decide (s.uart.outq.length < 256)
        else false)
      ∧ (memRead 0x6003 s).2 = s
      ∧ ∀ v : Word, memWrite 0x6003 v s = s

/-- `U_OFL` reads as the Word last written to it; a write stores the whole Word and, with `RU` set, empties
both FIFOs and clears the overflow bit; it changes nothing else, so `OW` and `IR` have no effect (R134 to
R136; the spec's decisions D10, D13, D14, log entries 3 and 9). -/
def Obligations.ControlRegisterStoresAndResets : Prop :=
  ∀ (v : Word) (s : State),
    memRead 0x6004 s = (s.uart.ctl, s)
      ∧ (v.getLsbD s.params.oflRu.val = true →
          memWrite 0x6004 v s =
            { s with uart := { s.uart with ctl := v, inq := [], outq := [], io := false } })
      ∧ (v.getLsbD s.params.oflRu.val = false →
          memWrite 0x6004 v s = { s with uart := { s.uart with ctl := v } })

/-- No instruction sets the overflow bit; a step clears it exactly when it is a store to `U_OFL` with `RU`
set; `feed_in` sets it exactly when a byte meets a full FIFO; `drain_out` leaves it; `reset` clears it
(R137). What clears it in a step rests on the spec's decisions D10, D12, D13 and D14, log entries 3 and 9;
the `feed_in` clause on D17, log entry 10; the `reset` clause on D16 in R25, log entry 4. -/
def Obligations.OverflowBitIsSticky : Prop :=
  (∀ s t : State, step s = .next t →
    (s.uart.io = false → t.uart.io = false)
      ∧ (s.uart.io = true →
          (t.uart.io = false ↔
            s.reg .a = 0x6004 ∧ t.uart.ctl.getLsbD s.params.oflRu.val = true
              ∧ ∃ w, s.rom[s.pc.toNat]? = some w ∧ w.getLsbD 15 = false
                  ∧ w.extractLsb' 3 3 = 0b010)))
    ∧ (∀ (bytes : List Byte) (s : State), s.uart.inq.length ≤ 256 →
        (feedIn bytes s).uart.io
          = (s.uart.io || decide (256 < s.uart.inq.length + bytes.length)))
    ∧ (∀ s : State, (drainOut s).2.uart.io = s.uart.io)
    ∧ ∀ (p : Params) (rom : List Word) (maps : List Mapping) (s : State),
        hostReset p rom maps = .ok s → s.uart.io = false

/-- `feed_in` keeps, in order, the bytes that fit and drops the rest, setting the overflow bit if it
drops one; nothing but `uart.in` and that bit changes (R138, the spec's decision D17, log entry 10). -/
def Obligations.FeedInKeepsWhatFits : Prop :=
  ∀ (bytes : List Byte) (s : State), s.uart.inq.length ≤ 256 →
    feedIn bytes s =
      { s with uart :=
        { s.uart with
          inq := (s.uart.inq ++ bytes).take 256
          io := s.uart.io || decide (256 < s.uart.inq.length + bytes.length) } }

/-- `drain_out` returns all of `uart.out`, oldest first, and empties it; the bytes are those written to
`U_OUT`, in program order, as far as they fit (R139, R41; the order is the spec's decision D22, log entry
10). -/
def Obligations.DrainOutReturnsWrittenBytesInOrder : Prop :=
  ∀ (vs : List Word) (s : State), s.uart.outq.length + vs.length ≤ 256 →
    drainOut (writeUOut vs s) =
      (s.uart.outq ++ vs.map (fun v => v.extractLsb' 0 8),
        { s with uart := { s.uart with outq := [] } })

/-- Reads of `U_IN` return the bytes the host fed, in the order it fed them, each once (R41, R130, R138;
decisions D15 and D17, log entry 10). -/
def Obligations.UInReturnsFedBytesInOrder : Prop :=
  ∀ (bytes : List Byte) (s : State), s.uart.inq.length + bytes.length ≤ 256 →
    readUIn (s.uart.inq.length + bytes.length) (feedIn bytes s) =
      ((s.uart.inq ++ bytes).map (fun b => BitVec.ofNat 16 b.toNat),
        { s with uart := { s.uart with inq := [] } })

-- Reset ----------------------------------------------------------------------------------------------

/-- R23: a successful reset leaves every register and the PC zero; so does the state the model calls
reset. -/
def Obligations.ResetZeroesRegistersAndPc : Prop :=
  (∀ r : Reg, State.reset.reg r = 0x0000) ∧ State.reset.pc = 0x0000
    ∧ ∀ (p : Params) (rom : List Word) (maps : List Mapping) (s : State),
        hostReset p rom maps = .ok s → (∀ r : Reg, s.reg r = 0x0000) ∧ s.pc = 0x0000

/-- After a reset a RAM cell that no mapping covers is zero, and a covered one holds the ROM Word that the
last mapping covering it copied (R24). That the last one wins is R172, which the spec marks as derived;
that the cells under the UART are filled like any other is R174, the spec's decision D9, log entry 13. -/
def Obligations.ResetRamHoldsTheLastMapping : Prop :=
  ∀ (p : Params) (rom : List Word) (maps : List Mapping) (s : State),
    hostReset p rom maps = .ok s →
      (∀ a, (∀ m ∈ maps, ¬ coversCell m a) → s.ram.read a = 0x0000)
        ∧ ∀ before m after a, maps = before ++ m :: after → coversCell m a →
            (∀ n ∈ after, ¬ coversCell n a) →
              rom[m.romAddr.toNat + (a - m.ramAddr.toNat)]? = some (s.ram.read a)

/-- A reset succeeds exactly when the ROM has at most 65535 Words and every mapping stays within ROM and
RAM, the sums unbounded (R4, R173; the spec's decisions D2, D21, D23, log entry 14). -/
def Obligations.ResetSucceedsExactlyInRange : Prop :=
  ∀ (p : Params) (rom : List Word) (maps : List Mapping),
    (∃ s, hostReset p rom maps = .ok s) ↔
      rom.length ≤ 65535
        ∧ ∀ m ∈ maps, m.romAddr.toNat + m.length.toNat ≤ rom.length
            ∧ m.ramAddr.toNat + m.length.toNat ≤ 65536

/-- A successful reset leaves the UART empty, its overflow bit and control Word zero and the baud register
at its parameter (R25, the spec's decision D16, log entry 4). -/
def Obligations.ResetEmptiesTheUart : Prop :=
  ∀ (p : Params) (rom : List Word) (maps : List Mapping) (s : State),
    hostReset p rom maps = .ok s →
      s.uart = { inq := [], outq := [], baud := p.baudReset, io := false, ctl := 0x0000 }

/-- R175: the first step after a reset fetches `ROM[0]`, and with an empty ROM the machine is halted at
once. -/
def Obligations.ResetEntersAtRomZero : Prop :=
  ∀ (p : Params) (rom : List Word) (maps : List Mapping) (s : State),
    hostReset p rom maps = .ok s →
      s.pc = 0x0000 ∧ s.fetch = rom[0]? ∧ (rom = [] → s.halted = true ∧ step s = .next s)

/-- A successful reset installs the whole ROM it is given, Word for Word and of its length, and keeps the
machine's parameters; until the next reset no step and no host call, in any order and number, changes
either (R19, R170). That ROM and parameters stand in the state, which R22 does not count among it, is the
model's, log entries 2 and 3. -/
def Obligations.ResetInstallsTheWholeRom : Prop :=
  ∀ (p : Params) (rom : List Word) (maps : List Mapping) (s : State),
    hostReset p rom maps = .ok s →
      s.rom = rom ∧ s.params = p
        ∧ ∀ (es : List Event) (t : State),
            (∀ rom' maps', Event.host (.reset rom' maps') ∉ es) → interleave es s = some t →
              t.rom = rom ∧ t.params = p

/-- The constants that the assembler places after the text are in RAM at their address after the reset,
each in its cell (R61). -/
def Obligations.ConstsAreInRamAfterReset : Prop :=
  ∀ (p : Params) (text consts : List Word) (addr : Word) (s : State),
    hostReset p (imageWithConsts text consts addr).1 (imageWithConsts text consts addr).2 = .ok s →
      ∀ (i : Nat) (v : Word), consts[i]? = some v → s.ram.read (addr.toNat + i) = v

-- The invariant --------------------------------------------------------------------------------------

/-- The invariant `State.Inv` holds right after reset. -/
def Obligations.ResetMeetsTheInvariant : Prop :=
  State.reset.Inv

/-- Every step keeps the invariant: RAM stays in canonical form, neither FIFO exceeds 256 bytes (R125), the
ROM stays within its bound (R4) and the bit positions stay distinct. -/
def Obligations.StepKeepsTheInvariant : Prop :=
  ∀ s t : State, s.Inv → step s = .next t → t.Inv

/-- Every call of the host keeps the invariant too (R6, R140). -/
def Obligations.HostCallsKeepTheInvariant : Prop :=
  ∀ (c : HostCall) (s t : State), s.Inv → hostCall c s = some t → t.Inv

/-- No interleaving of steps and host calls, of any length, leaves the invariant (R6, R41, R140). -/
def Obligations.InterleavedRunsKeepTheInvariant : Prop :=
  ∀ (es : List Event) (s t : State), s.Inv → interleave es s = some t → t.Inv

-- Placing a word -------------------------------------------------------------------------------------

/-- A word placed by `withFetchWord` is what the very next step runs, and placing it changes nothing but
ROM. This is a property of the model's own operation (log entry 17), not of a rule. -/
def Obligations.PlacedWordIsRunNext : Prop :=
  ∀ (s : State) (w : Word),
    step (s.withFetchWord 16 w.toNat) = exec (decodeWord w) (s.withFetchWord 16 w.toNat)
      ∧ { s.withFetchWord 16 w.toNat with rom := s.rom } = s
end

