-- ==== Sys2Proof/Laws/Memory.lean ====
section
/-! SUPPORT. RAM: what a read gives after a write, and that every operation keeps the canonical form. -/

namespace Sys2Proof.Machine

@[simp] theorem Memory.read_nil (a : Nat) : Memory.read [] a = 0 := rfl

theorem Memory.read_erase (m : Memory) (a b : Nat) :
    (m.erase a).read b = if b = a then 0 else m.read b := by
  induction m with
  | nil => simp [Memory.erase, Memory.read]
  | cons c m ih =>
    by_cases hc : c.1 = a <;> by_cases hb : b = a <;> simp_all [Memory.erase, Memory.read]
    · intro h; exact absurd h.symm hb

theorem Memory.read_insert (m : Memory) (a b : Nat) (v : Word)
    (hm : ∀ c ∈ m, c.1 ≠ a) :
    (m.insert a v).read b = if b = a then v else m.read b := by
  induction m with
  | nil =>
    by_cases hb : b = a
    · simp [Memory.insert, Memory.read, hb]
    · simp [Memory.insert, Memory.read, hb, Ne.symm hb]
  | cons c m ih =>
    have hc : c.1 ≠ a := hm c (by simp)
    have ih := ih (fun d hd => hm d (by simp [hd]))
    by_cases hlt : a < c.1
    · by_cases hb : b = a
      · simp [Memory.insert, hlt, Memory.read, hb]
      · simp [Memory.insert, hlt, Memory.read, hb, Ne.symm hb]
    · by_cases hcb : c.1 = b
      · have hb : b ≠ a := fun e => hc (hcb.trans e)
        simp only [Memory.insert, hlt, if_false]
        simp only [Memory.read, hcb, if_true, hb, if_false]
      · simp only [Memory.insert, hlt, if_false]
        simp only [Memory.read, hcb, if_false, ih]

theorem Memory.not_mem_erase (m : Memory) (a : Nat) : ∀ c ∈ m.erase a, c.1 ≠ a := by
  induction m with
  | nil => simp [Memory.erase]
  | cons c m ih =>
    by_cases hc : c.1 = a
    · simpa [Memory.erase, hc] using ih
    · intro d hd
      simp [Memory.erase, hc] at hd
      rcases hd with rfl | hd
      · exact hc
      · exact ih d hd

/-- A read after a write: the written address gives the value written, every other address what it gave
before. It holds of any list of cells, canonical or not. -/
@[simp] theorem Memory.read_write (m : Memory) (a b : Nat) (v : Word) :
    (m.write a v).read b = if b = a then v else m.read b := by
  unfold Memory.write
  split
  · next h => simp [Memory.read_erase, h]
  · rw [Memory.read_insert _ _ _ _ (Memory.not_mem_erase m a), Memory.read_erase]
    split <;> rfl

theorem Memory.wfFrom_mono {lo hi : Nat} {m : Memory} (h : Memory.wfFrom hi m = true) (hl : lo ≤ hi) :
    Memory.wfFrom lo m = true := by
  cases m with
  | nil => rfl
  | cons c m =>
    simp only [Memory.wfFrom, Bool.and_eq_true, decide_eq_true_eq] at h ⊢
    exact ⟨⟨⟨by omega, h.1.1.2⟩, h.1.2⟩, h.2⟩

theorem Memory.wfFrom_erase {lo : Nat} {m : Memory} (a : Nat) (h : Memory.wfFrom lo m = true) :
    Memory.wfFrom lo (m.erase a) = true := by
  induction m generalizing lo with
  | nil => rfl
  | cons c m ih =>
    simp only [Memory.wfFrom, Bool.and_eq_true, decide_eq_true_eq] at h
    by_cases hc : c.1 = a
    · simp only [Memory.erase, hc, if_true]
      exact Memory.wfFrom_mono (ih h.2) (by omega)
    · simp only [Memory.erase, hc, if_false, Memory.wfFrom, Bool.and_eq_true, decide_eq_true_eq]
      exact ⟨h.1, ih h.2⟩

theorem Memory.wfFrom_insert {lo : Nat} {m : Memory} {a : Nat} {v : Word}
    (h : Memory.wfFrom lo m = true) (hm : ∀ c ∈ m, c.1 ≠ a) (hlo : lo ≤ a) (ha : a < Config.ramWords)
    (hv : v ≠ 0) : Memory.wfFrom lo (m.insert a v) = true := by
  induction m generalizing lo with
  | nil =>
    simp only [Memory.insert, Memory.wfFrom, Bool.and_eq_true, decide_eq_true_eq]
    exact ⟨⟨⟨hlo, ha⟩, hv⟩, trivial⟩
  | cons c m ih =>
    have hc : c.1 ≠ a := hm c (by simp)
    simp only [Memory.wfFrom, Bool.and_eq_true, decide_eq_true_eq] at h
    by_cases hlt : a < c.1
    · simp only [Memory.insert, hlt, if_true, Memory.wfFrom, Bool.and_eq_true, decide_eq_true_eq]
      exact ⟨⟨⟨hlo, ha⟩, hv⟩, ⟨⟨by omega, h.1.1.2⟩, h.1.2⟩, h.2⟩
    · simp only [Memory.insert, hlt, if_false, Memory.wfFrom, Bool.and_eq_true, decide_eq_true_eq]
      exact ⟨h.1, ih h.2 (fun d hd => hm d (by simp [hd])) (by omega)⟩

/-- A write within RAM keeps the canonical form. -/
theorem Memory.wf_write {m : Memory} {a : Nat} {v : Word} (h : m.wf = true)
    (ha : a < Config.ramWords) : (m.write a v).wf = true := by
  unfold Memory.write Memory.wf at *
  split
  · exact Memory.wfFrom_erase a h
  · next hv =>
    exact Memory.wfFrom_insert (Memory.wfFrom_erase a h) (Memory.not_mem_erase m a) (by omega) ha hv

theorem Memory.read_of_lt_wfFrom {lo a : Nat} {m : Memory} (h : Memory.wfFrom lo m = true)
    (ha : a < lo) : m.read a = 0 := by
  induction m generalizing lo with
  | nil => rfl
  | cons c m ih =>
    simp only [Memory.wfFrom, Bool.and_eq_true, decide_eq_true_eq] at h
    simp only [Memory.read, show c.1 ≠ a by omega, if_false]
    exact ih h.2 (by omega)

/-- The form is canonical: two memories in it that read alike at every address are the same list. -/
theorem Memory.wfFrom_ext {lo : Nat} {m n : Memory} (hm : Memory.wfFrom lo m = true)
    (hn : Memory.wfFrom lo n = true) (h : ∀ a, m.read a = n.read a) : m = n := by
  induction m generalizing lo n with
  | nil =>
    cases n with
    | nil => rfl
    | cons d n =>
      simp only [Memory.wfFrom, Bool.and_eq_true, decide_eq_true_eq] at hn
      exact absurd (by simpa [Memory.read] using (h d.1).symm) hn.1.2
  | cons c m ih =>
    simp only [Memory.wfFrom, Bool.and_eq_true, decide_eq_true_eq] at hm
    cases n with
    | nil => exact absurd (by simpa [Memory.read] using h c.1) hm.1.2
    | cons d n =>
      simp only [Memory.wfFrom, Bool.and_eq_true, decide_eq_true_eq] at hn
      have hcd : c.1 = d.1 := by
        by_contra hne
        rcases Nat.lt_or_gt_of_ne hne with hl | hl
        · have := h c.1
          simp only [Memory.read, if_true, if_neg (Ne.symm hne)] at this
          exact hm.1.2 (this.trans (Memory.read_of_lt_wfFrom hn.2 (by omega)))
        · have := h d.1
          simp only [Memory.read, if_true, if_neg hne] at this
          exact hn.1.2 (this.symm.trans (Memory.read_of_lt_wfFrom hm.2 (by omega)))
      have hv : c.2 = d.2 := by simpa [Memory.read, hcd] using h c.1
      have htl : m = n := by
        refine ih hm.2 (hcd ▸ hn.2) (fun a => ?_)
        by_cases ha : c.1 = a
        · rw [Memory.read_of_lt_wfFrom hm.2 (by omega), Memory.read_of_lt_wfFrom hn.2 (by omega)]
        · simpa only [Memory.read, if_neg ha, if_neg (hcd ▸ ha)] using h a
      rw [Prod.ext hcd hv, htl]

/-- The memory right after reset is in canonical form. -/
theorem State.reset_ram_wf : State.reset.ram.wf = true := rfl

end Sys2Proof.Machine
end

