-- ==== Sys2Proof/Laws/State.lean ====
section
/-! SUPPORT. What each update of the state leaves in each field. -/

namespace Sys2Proof.Machine

/-- Reading a register after writing one. -/
@[simp] theorem Regs.get_set (x : Regs) (q r : Reg) (v : Word) :
    (x.set q v).get r = if r = q then v else x.get r := by
  cases q <;> cases r <;> rfl

section
variable (s : State) (q r : Reg) (v : Word)

@[simp] theorem State.reg_setReg : (s.setReg q v).reg r = if r = q then v else s.reg r :=
  Regs.get_set s.regs q r v
@[simp] theorem State.setReg_pc : (s.setReg q v).pc = s.pc := rfl
@[simp] theorem State.setReg_ram : (s.setReg q v).ram = s.ram := rfl
@[simp] theorem State.setReg_uart : (s.setReg q v).uart = s.uart := rfl
@[simp] theorem State.setReg_rom : (s.setReg q v).rom = s.rom := rfl
@[simp] theorem State.setReg_params : (s.setReg q v).params = s.params := rfl

@[simp] theorem State.reg_setPc : (s.setPc v).reg r = s.reg r := rfl
@[simp] theorem State.setPc_regs : (s.setPc v).regs = s.regs := rfl
@[simp] theorem State.setPc_pc : (s.setPc v).pc = v := rfl
@[simp] theorem State.setPc_ram : (s.setPc v).ram = s.ram := rfl
@[simp] theorem State.setPc_uart : (s.setPc v).uart = s.uart := rfl
@[simp] theorem State.setPc_rom : (s.setPc v).rom = s.rom := rfl
@[simp] theorem State.setPc_params : (s.setPc v).params = s.params := rfl

@[simp] theorem State.reg_withUart (u : Uart) : ({ s with uart := u } : State).reg r = s.reg r := rfl
@[simp] theorem State.reg_withRam (m : Memory) : ({ s with ram := m } : State).reg r = s.reg r := rfl
end

/-- The fresh state holds zero in every register. -/
@[simp] theorem State.fresh_reg (p : Params) (rom : List Word) (r : Reg) :
    (State.fresh p rom).reg r = 0 := by
  cases r <;> rfl

@[simp] theorem State.fresh_pc (p : Params) (rom : List Word) : (State.fresh p rom).pc = 0 := rfl
@[simp] theorem State.fresh_ram (p : Params) (rom : List Word) : (State.fresh p rom).ram = [] := rfl
@[simp] theorem State.fresh_uart (p : Params) (rom : List Word) :
    (State.fresh p rom).uart = Uart.fresh p := rfl
@[simp] theorem State.fresh_rom (p : Params) (rom : List Word) : (State.fresh p rom).rom = rom := rfl
@[simp] theorem State.fresh_params (p : Params) (rom : List Word) :
    (State.fresh p rom).params = p := rfl

end Sys2Proof.Machine
end

