-- ==== Sys2Proof/Laws/Bridge.lean ====
section
/-! SUPPORT. What the host's operations can do. -/

namespace Sys2Proof.Machine

/-- A byte pushed when there is room. -/
theorem Uart.push_of_lt {u : Uart} {b : Byte} (h : u.inq.length < Config.fifoCap) :
    u.push b = { u with inq := u.inq ++ [b] } := by
  simp [Uart.push, h]

/-- A byte pushed when the FIFO is full. -/
theorem Uart.push_of_le {u : Uart} {b : Byte} (h : Config.fifoCap ≤ u.inq.length) :
    u.push b = { u with io := true } := by
  simp [Uart.push, Nat.not_lt.mpr h]

/-- Copying Words to ascending addresses: the cells from `a` on hold them, the others are unchanged. -/
theorem read_copyWords (ws : List Word) (a b : Nat) (m : Memory) :
    (copyWords ws a m).read b =
      if a ≤ b then (ws[b - a]?).getD (m.read b) else m.read b := by
  induction ws generalizing a m with
  | nil => simp [copyWords]
  | cons w ws ih =>
    rw [copyWords, ih]
    rcases Nat.lt_trichotomy b a with h | h | h
    · simp [show ¬ a + 1 ≤ b by omega, show ¬ a ≤ b by omega, show b ≠ a by omega]
    · subst h; simp
    · obtain ⟨k, rfl⟩ : ∃ k, b = a + 1 + k := ⟨b - (a + 1), by omega⟩
      simp [show a + 1 + k - a = k + 1 by omega, show a ≤ a + 1 + k by omega,
        show a + 1 + k ≠ a by omega]

/-- Copying within RAM keeps the canonical form. -/
theorem wf_copyWords {ws : List Word} {a : Nat} {m : Memory} (h : m.wf = true)
    (ha : a + ws.length ≤ Config.ramWords) : (copyWords ws a m).wf = true := by
  induction ws generalizing a m with
  | nil => exact h
  | cons w ws ih =>
    simp only [List.length_cons] at ha
    exact ih (Memory.wf_write h (by omega)) (by omega)

/-- Everything a reset can answer: a machine, when ROM and mappings are in range, or the failure of the
first check that does not hold. -/
theorem hostReset_ok_iff (p : Params) (rom : List Word) (maps : List Mapping) (s : State) :
    hostReset p rom maps = .ok s ↔
      romFits rom = true ∧ maps.all (Mapping.inRange rom.length) = true
        ∧ s = { State.fresh p rom with ram := applyMappings rom maps [] } := by
  unfold hostReset
  split
  · next h1 =>
    split
    · next h2 => simp [h1, h2, eq_comm]
    · next h2 => simp [h1, h2]
  · next h1 => simp [h1]

/-- A host call other than a reset changes only the UART, and every host call leaves the parameters. -/
theorem hostCall_cases {c : HostCall} {s t : State} (h : hostCall c s = some t) :
    (∃ rom maps, c = .reset rom maps ∧ hostReset s.params rom maps = .ok t)
      ∨ (∃ bytes, c = .feedIn bytes ∧ t = { s with uart := bytes.foldl Uart.push s.uart })
      ∨ (c = .drainOut ∧ t = { s with uart := { s.uart with outq := [] } }) := by
  cases c with
  | reset rom maps =>
    refine .inl ⟨rom, maps, rfl, ?_⟩
    simp only [hostCall] at h
    split at h
    · next u e => injection h with h; subst h; exact e
    · cases h
  | feedIn bytes => exact .inr (.inl ⟨bytes, rfl, (Option.some.inj h).symm⟩)
  | drainOut => exact .inr (.inr ⟨rfl, (Option.some.inj h).symm⟩)

end Sys2Proof.Machine
end

