-- ==== Sys2Proof/Laws/Decode.lean ====
section
/-! SUPPORT. The fields of an encoded word, one by one, and the codes of the operands. -/

namespace Sys2Proof

/-- The operand codes and the operands are in bijection: no code is reserved (R53). -/
@[simp] theorem operandOfCode_operandCode (o : Operand) : operandOfCode (operandCode o) = o := by
  rcases o with _ | r | _
  · rfl
  · cases r <;> rfl
  · rfl

@[simp] theorem operandCode_operandOfCode (c : BitVec 3) : operandCode (operandOfCode c) = c := by
  revert c; decide

section
variable (op : BitVec 4) (f : Fields)

@[simp] theorem encodeFormatC_bit15 : (encodeFormatC op f)[15] = false := by
  simp [encodeFormatC]

@[simp] theorem encodeFormatC_src : (encodeFormatC op f).extractLsb' 12 3 = operandCode f.src := by
  ext k hk
  interval_cases k <;> simp [encodeFormatC, BitVec.getLsbD_eq_getElem]

@[simp] theorem encodeFormatC_op : (encodeFormatC op f).extractLsb' 8 4 = op := by
  ext k hk
  interval_cases k <;> simp [encodeFormatC, BitVec.getLsbD_eq_getElem]

@[simp] theorem encodeFormatC_sw : (encodeFormatC op f)[7] = f.sw := by
  simp [encodeFormatC]

@[simp] theorem encodeFormatC_zx : (encodeFormatC op f)[6] = f.zx := by
  simp [encodeFormatC]

@[simp] theorem encodeFormatC_tgt : (encodeFormatC op f).extractLsb' 3 3 = operandCode f.tgt := by
  ext k hk
  interval_cases k <;> simp [encodeFormatC, BitVec.getLsbD_eq_getElem]

@[simp] theorem encodeFormatC_jmp : (encodeFormatC op f).extractLsb' 0 3 = f.jmp := by
  ext k hk
  interval_cases k <;> simp [encodeFormatC, BitVec.getLsbD_eq_getElem]
end

end Sys2Proof
end

