-- ==== Sys2Proof/Laws/Uart.lean ====
section
/-! SUPPORT. What the address decoder and the UART's registers can do. -/

namespace Sys2Proof.Machine

/-- No device stands at an address outside `0x6000` to `0x6004`, and only there. -/
theorem mmio_eq_none_iff (a : Word) :
    mmio a = none ↔ ¬ (Config.mmioLo ≤ a.toNat ∧ a.toNat ≤ Config.mmioHi) := by
  unfold mmio Config.mmioLo Config.mmioHi
  split_ifs with h0 h1 h2 h3 h4
  iterate 5 (subst_vars; decide)
  simp only [true_iff]
  intro h
  have e : a = 0x6000 ∨ a = 0x6001 ∨ a = 0x6002 ∨ a = 0x6003 ∨ a = 0x6004 := by
    simp only [← BitVec.toNat_inj] at *
    simp at *
    omega
  tauto

/-- A device read gives back the device, or the device without the head of `uart.in`. -/
theorem Uart.read_snd (p : Params) (r : UartReg) (u : Uart) :
    (u.read p r).2 = if r = .uIn then { u with inq := u.inq.tail } else u := by
  rcases u with ⟨_ | ⟨b, q⟩, o, bd, io, c⟩ <;> cases r <;> rfl

/-- Everything a read through the address decoder can do: at a device address it gives the device's
value and the device after its read, elsewhere the RAM cell and no change. -/
theorem memRead_cases (a : Word) (s : State) :
    (∃ r, mmio a = some r ∧ memRead a s =
        ((s.uart.read s.params r).1, { s with uart := (s.uart.read s.params r).2 }))
      ∨ (mmio a = none ∧ memRead a s = (s.ram.read a.toNat, s)) := by
  unfold memRead
  cases h : mmio a with
  | none => exact .inr ⟨rfl, rfl⟩
  | some r => exact .inl ⟨r, rfl, rfl⟩

/-- Everything a write through the address decoder can do. -/
theorem memWrite_cases (a v : Word) (s : State) :
    (∃ r, mmio a = some r ∧ memWrite a v s = { s with uart := s.uart.write s.params r v })
      ∨ (mmio a = none ∧ memWrite a v s = { s with ram := s.ram.write a.toNat v }) := by
  unfold memWrite
  cases h : mmio a with
  | none => exact .inr ⟨rfl, rfl⟩
  | some r => exact .inl ⟨r, rfl, rfl⟩

section
variable (a v : Word) (s : State) (r : Reg)

@[simp] theorem memRead_regs : (memRead a s).2.regs = s.regs := by
  rcases memRead_cases a s with ⟨_, _, h⟩ | ⟨_, h⟩ <;> rw [h]
@[simp] theorem memRead_reg : (memRead a s).2.reg r = s.reg r :=
  congrArg (Regs.get · r) (memRead_regs a s)
@[simp] theorem memRead_pc : (memRead a s).2.pc = s.pc := by
  rcases memRead_cases a s with ⟨_, _, h⟩ | ⟨_, h⟩ <;> rw [h]
@[simp] theorem memRead_ram : (memRead a s).2.ram = s.ram := by
  rcases memRead_cases a s with ⟨_, _, h⟩ | ⟨_, h⟩ <;> rw [h]
@[simp] theorem memRead_rom : (memRead a s).2.rom = s.rom := by
  rcases memRead_cases a s with ⟨_, _, h⟩ | ⟨_, h⟩ <;> rw [h]
@[simp] theorem memRead_params : (memRead a s).2.params = s.params := by
  rcases memRead_cases a s with ⟨_, _, h⟩ | ⟨_, h⟩ <;> rw [h]

@[simp] theorem memWrite_regs : (memWrite a v s).regs = s.regs := by
  rcases memWrite_cases a v s with ⟨_, _, h⟩ | ⟨_, h⟩ <;> rw [h]
@[simp] theorem memWrite_reg : (memWrite a v s).reg r = s.reg r :=
  congrArg (Regs.get · r) (memWrite_regs a v s)
@[simp] theorem memWrite_pc : (memWrite a v s).pc = s.pc := by
  rcases memWrite_cases a v s with ⟨_, _, h⟩ | ⟨_, h⟩ <;> rw [h]
@[simp] theorem memWrite_rom : (memWrite a v s).rom = s.rom := by
  rcases memWrite_cases a v s with ⟨_, _, h⟩ | ⟨_, h⟩ <;> rw [h]
@[simp] theorem memWrite_params : (memWrite a v s).params = s.params := by
  rcases memWrite_cases a v s with ⟨_, _, h⟩ | ⟨_, h⟩ <;> rw [h]
end

/-- A device write leaves each FIFO within its capacity. -/
theorem Uart.write_length_le {p : Params} {r : UartReg} {v : Word} {u : Uart}
    (hi : u.inq.length ≤ Config.fifoCap) (ho : u.outq.length ≤ Config.fifoCap) :
    (u.write p r v).inq.length ≤ Config.fifoCap
      ∧ (u.write p r v).outq.length ≤ Config.fifoCap := by
  cases r
  case uOut =>
    simp only [Uart.write, Uart.enqueueOut]
    split
    · next h => exact ⟨hi, by simp only [List.length_append, List.length_singleton]; omega⟩
    · exact ⟨hi, ho⟩
  case uOfl =>
    simp only [Uart.write, Uart.writeControl]
    split
    · exact ⟨Nat.zero_le _, Nat.zero_le _⟩
    · exact ⟨hi, ho⟩
  all_goals exact ⟨hi, ho⟩

/-- A device read leaves each FIFO within its capacity. -/
theorem Uart.read_length_le {p : Params} {r : UartReg} {u : Uart}
    (hi : u.inq.length ≤ Config.fifoCap) (ho : u.outq.length ≤ Config.fifoCap) :
    (u.read p r).2.inq.length ≤ Config.fifoCap
      ∧ (u.read p r).2.outq.length ≤ Config.fifoCap := by
  rw [Uart.read_snd]
  split
  · exact ⟨by simp; omega, ho⟩
  · exact ⟨hi, ho⟩

/-- A write through the address decoder keeps RAM in canonical form. -/
theorem memWrite_ram_wf {a v : Word} {s : State} (h : s.ram.wf = true) :
    (memWrite a v s).ram.wf = true := by
  rcases memWrite_cases a v s with ⟨_, _, e⟩ | ⟨_, e⟩ <;> rw [e]
  · exact h
  · exact Memory.wf_write h (by have := a.isLt; simpa using this)

end Sys2Proof.Machine
end

