-- ==== Sys2Proof/Laws/Compute.lean ====
section
/-! SUPPORT. What the shared part of the compute instructions does, and what `exec` can answer. -/

namespace Sys2Proof.Machine

/-- The state after a source is resolved: that of the address decoder's read for `*A`, the same state
otherwise. -/
theorem sourceValue_snd (src : Operand) (a0 : Word) (s : State) :
    (sourceValue src a0 s).2 = if src = .starA then (memRead a0 s).2 else s := by
  cases src <;> rfl

section
variable (src tgt : Operand) (a0 r : Word) (s : State) (q : Reg)

@[simp] theorem sourceValue_reg : (sourceValue src a0 s).2.reg q = s.reg q := by
  cases src <;> simp [sourceValue]
@[simp] theorem sourceValue_pc : (sourceValue src a0 s).2.pc = s.pc := by
  cases src <;> simp [sourceValue]
@[simp] theorem sourceValue_ram : (sourceValue src a0 s).2.ram = s.ram := by
  cases src <;> simp [sourceValue]
@[simp] theorem sourceValue_rom : (sourceValue src a0 s).2.rom = s.rom := by
  cases src <;> simp [sourceValue]
@[simp] theorem sourceValue_params : (sourceValue src a0 s).2.params = s.params := by
  cases src <;> simp [sourceValue]

@[simp] theorem writeTarget_reg :
    (writeTarget tgt a0 r s).reg q = if tgt = .reg q then r else s.reg q := by
  cases tgt with
  | none => simp [writeTarget]
  | reg p => simp [writeTarget, eq_comm]
  | starA => simp [writeTarget]
@[simp] theorem writeTarget_pc : (writeTarget tgt a0 r s).pc = s.pc := by
  cases tgt <;> simp [writeTarget]
@[simp] theorem writeTarget_rom : (writeTarget tgt a0 r s).rom = s.rom := by
  cases tgt <;> simp [writeTarget]
@[simp] theorem writeTarget_params : (writeTarget tgt a0 r s).params = s.params := by
  cases tgt <;> simp [writeTarget]
end

/-- Only a `*A` target touches RAM or a device. -/
theorem writeTarget_ram (tgt : Operand) (a0 r : Word) (s : State) :
    (writeTarget tgt a0 r s).ram = if tgt = .starA then (memWrite a0 r s).ram else s.ram := by
  cases tgt <;> rfl

theorem writeTarget_uart (tgt : Operand) (a0 r : Word) (s : State) :
    (writeTarget tgt a0 r s).uart = if tgt = .starA then (memWrite a0 r s).uart else s.uart := by
  cases tgt <;> rfl

/-- The PC update changes the PC alone. -/
theorem arbitrate_eq (jmp : BitVec 3) (r : Word) (s : State) :
    arbitrate jmp r s =
      s.setPc (if taken jmp (signClass r) then s.reg .a else s.pc + 1) := by
  unfold arbitrate
  split <;> rfl

/-- A compute instruction as one equation: source read, target write, PC update. -/
theorem compute_eq (alu : Word → Word → Word) (f : Fields) (s : State) :
    compute alu f s =
      let r := alu (aluInputs f s).1 (aluInputs f s).2
      let t := writeTarget f.tgt (s.reg .a) r (sourceValue f.src (s.reg .a) s).2
      t.setPc (if taken f.jmp (signClass r) then t.reg .a else t.pc + 1) :=
  arbitrate_eq ..

/-- Everything `exec` can answer: an immediate load, a compute instruction with some ALU function, or the
fault of a reserved code. -/
theorem exec_cases (i : Instr) (s : State) :
    (∃ imm, i = .ldi imm
        ∧ exec i s = .next ((s.setReg .a (imm &&& 0x7FFF)).setPc (s.pc + 1)))
      ∨ (∃ f alu, (encode i)[15] = false ∧ (encode i).extractLsb' 3 3 = operandCode f.tgt
          ∧ exec i s = .next (compute alu f s))
      ∨ exec i s = .fault (.invalidOpcode s.pc (encode i)) := by
  cases i
  case ldi imm => exact .inl ⟨imm, rfl, rfl⟩
  case reserved1101 f => exact .inr (.inr rfl)
  case reserved1110 f => exact .inr (.inr rfl)
  case reserved1111 f => exact .inr (.inr rfl)
  all_goals
    next f => exact .inr (.inl ⟨f, _, encodeFormatC_bit15 _ f, encodeFormatC_tgt _ f, rfl⟩)

end Sys2Proof.Machine
end

