-- ==== Sys2Proof/Laws/PerInstr.lean ====
section
/-! SUPPORT. One lemma per instruction of each family of statements about the syntax. -/

/-- The encoding of a format C instruction keeps the bits that its row of the opcode table fixes. -/
theorem Sys2Proof.encodeFormatC_and_mask (op : BitVec 4) (f : Sys2Proof.Fields) :
    Sys2Proof.encodeFormatC op f &&& (0x8F00 : Sys2Proof.Word) = op.setWidth 16 <<< 8 := by
  rw [Sys2Proof.encodeFormatC]
  ext k hk
  simp only [BitVec.getElem_and, BitVec.getElem_or, BitVec.getElem_shiftLeft, BitVec.getElem_setWidth]
  interval_cases k <;> simp

/-- The row of spec/opcode_table.json an instruction stands for, as its `(mask, match)`. -/
def Sys2Proof.Laws.TableRow.row (i : Sys2Proof.Instr) : Sys2Proof.Word × Sys2Proof.Word :=
  match i with
  | .ldi _ => (0x8000, 0x8000)
  | .and _ => (0x8F00, 0x0000)
  | .or _ => (0x8F00, 0x0100)
  | .xor _ => (0x8F00, 0x0200)
  | .not _ => (0x8F00, 0x0300)
  | .lsl _ => (0x8F00, 0x0400)
  | .lsr _ => (0x8F00, 0x0500)
  | .rol _ => (0x8F00, 0x0600)
  | .ror _ => (0x8F00, 0x0700)
  | .add _ => (0x8F00, 0x0800)
  | .sub _ => (0x8F00, 0x0900)
  | .inc _ => (0x8F00, 0x0A00)
  | .dec _ => (0x8F00, 0x0B00)
  | .asr _ => (0x8F00, 0x0C00)
  | .reserved1101 _ => (0x8F00, 0x0D00)
  | .reserved1110 _ => (0x8F00, 0x0E00)
  | .reserved1111 _ => (0x8F00, 0x0F00)

/-- The word of the instruction has the bits that its row of the opcode table fixes. -/
def Sys2Proof.Laws.TableRow.Statement (i : Sys2Proof.Instr) : Prop :=
  Sys2Proof.encode i &&& (Sys2Proof.Laws.TableRow.row i).1 = (Sys2Proof.Laws.TableRow.row i).2

theorem Sys2Proof.Laws.TableRow.ldi (imm : Sys2Proof.Word) :
    Sys2Proof.Laws.TableRow.Statement (.ldi imm) := by
  show (0x8000 ||| (imm &&& 0x7FFF)) &&& 0x8000#16 = 0x8000#16
  ext k hk
  simp only [BitVec.getElem_and, BitVec.getElem_or]
  interval_cases k <;> simp

theorem Sys2Proof.Laws.TableRow.and (f : Sys2Proof.Fields) :
    Sys2Proof.Laws.TableRow.Statement (.and f) :=
  Sys2Proof.encodeFormatC_and_mask _ f

theorem Sys2Proof.Laws.TableRow.or (f : Sys2Proof.Fields) :
    Sys2Proof.Laws.TableRow.Statement (.or f) :=
  Sys2Proof.encodeFormatC_and_mask _ f

theorem Sys2Proof.Laws.TableRow.xor (f : Sys2Proof.Fields) :
    Sys2Proof.Laws.TableRow.Statement (.xor f) :=
  Sys2Proof.encodeFormatC_and_mask _ f

theorem Sys2Proof.Laws.TableRow.not (f : Sys2Proof.Fields) :
    Sys2Proof.Laws.TableRow.Statement (.not f) :=
  Sys2Proof.encodeFormatC_and_mask _ f

theorem Sys2Proof.Laws.TableRow.lsl (f : Sys2Proof.Fields) :
    Sys2Proof.Laws.TableRow.Statement (.lsl f) :=
  Sys2Proof.encodeFormatC_and_mask _ f

theorem Sys2Proof.Laws.TableRow.lsr (f : Sys2Proof.Fields) :
    Sys2Proof.Laws.TableRow.Statement (.lsr f) :=
  Sys2Proof.encodeFormatC_and_mask _ f

theorem Sys2Proof.Laws.TableRow.rol (f : Sys2Proof.Fields) :
    Sys2Proof.Laws.TableRow.Statement (.rol f) :=
  Sys2Proof.encodeFormatC_and_mask _ f

theorem Sys2Proof.Laws.TableRow.ror (f : Sys2Proof.Fields) :
    Sys2Proof.Laws.TableRow.Statement (.ror f) :=
  Sys2Proof.encodeFormatC_and_mask _ f

theorem Sys2Proof.Laws.TableRow.add (f : Sys2Proof.Fields) :
    Sys2Proof.Laws.TableRow.Statement (.add f) :=
  Sys2Proof.encodeFormatC_and_mask _ f

theorem Sys2Proof.Laws.TableRow.sub (f : Sys2Proof.Fields) :
    Sys2Proof.Laws.TableRow.Statement (.sub f) :=
  Sys2Proof.encodeFormatC_and_mask _ f

theorem Sys2Proof.Laws.TableRow.inc (f : Sys2Proof.Fields) :
    Sys2Proof.Laws.TableRow.Statement (.inc f) :=
  Sys2Proof.encodeFormatC_and_mask _ f

theorem Sys2Proof.Laws.TableRow.dec (f : Sys2Proof.Fields) :
    Sys2Proof.Laws.TableRow.Statement (.dec f) :=
  Sys2Proof.encodeFormatC_and_mask _ f

theorem Sys2Proof.Laws.TableRow.asr (f : Sys2Proof.Fields) :
    Sys2Proof.Laws.TableRow.Statement (.asr f) :=
  Sys2Proof.encodeFormatC_and_mask _ f

theorem Sys2Proof.Laws.TableRow.reserved1101 (f : Sys2Proof.Fields) :
    Sys2Proof.Laws.TableRow.Statement (.reserved1101 f) :=
  Sys2Proof.encodeFormatC_and_mask _ f

theorem Sys2Proof.Laws.TableRow.reserved1110 (f : Sys2Proof.Fields) :
    Sys2Proof.Laws.TableRow.Statement (.reserved1110 f) :=
  Sys2Proof.encodeFormatC_and_mask _ f

theorem Sys2Proof.Laws.TableRow.reserved1111 (f : Sys2Proof.Fields) :
    Sys2Proof.Laws.TableRow.Statement (.reserved1111 f) :=
  Sys2Proof.encodeFormatC_and_mask _ f
end

