-- ==== Sys2Proof/Laws/Step.lean ====
section
/-! SUPPORT. What is fetched, and what a step and a run answer. -/

namespace Sys2Proof.Machine

/-- What is fetched is the ROM Word at the PC, if there is one. -/
theorem State.fetch_eq (s : State) : s.fetch = s.rom[s.pc.toNat]? := by
  unfold State.fetch State.halted State.romRead
  by_cases h : s.rom.length ≤ s.pc.toNat
  · simp [h]
  · simp [h, List.getD, List.getElem?_eq_getElem (Nat.lt_of_not_le h)]

/-- A placed word stands at its address, whatever the ROM was. -/
theorem placeWord_getElem? (rom : List Word) (a : Nat) (w : Word) :
    (placeWord rom a w)[a]? = some w := by
  unfold placeWord
  split
  · next h => rw [List.getElem?_set_self h]
  · next h =>
    have hl : (rom ++ List.replicate (a - rom.length) (0 : Word)).length = a := by
      simp only [List.length_append, List.length_replicate]
      omega
    rw [List.getElem?_append_right hl.le, hl, Nat.sub_self]
    rfl

theorem step_of_fetch {s : State} {w : Word} (h : s.fetch = some w) :
    step s = exec (decodeWord w) s := by
  simp [step, h]

theorem step_of_fetch_none {s : State} (h : s.fetch = none) : step s = .next s := by
  simp [step, h]

/-- Everything a step that answers a next state can do: nothing when halted, an immediate load, or a
compute instruction with some ALU function and the target that bits 5 to 3 of the instruction's encoding
name. -/
theorem step_cases {s t : State} (h : step s = .next t) :
    (s.fetch = none ∧ t = s)
      ∨ (∃ w imm, s.fetch = some w ∧ decodeWord w = .ldi imm
          ∧ t = (s.setReg .a (imm &&& 0x7FFF)).setPc (s.pc + 1))
      ∨ (∃ w f alu, s.fetch = some w ∧ (encode (decodeWord w))[15] = false
          ∧ (encode (decodeWord w)).extractLsb' 3 3 = operandCode f.tgt ∧ t = compute alu f s) := by
  cases hf : s.fetch with
  | none =>
    rw [step_of_fetch_none hf] at h
    exact .inl ⟨rfl, (Host.Outcome.next.inj h).symm⟩
  | some w =>
    rw [step_of_fetch hf] at h
    rcases exec_cases (decodeWord w) s with ⟨imm, hi, e⟩ | ⟨f, alu, h15, ht, e⟩ | e <;> rw [e] at h
    · exact .inr (.inl ⟨w, imm, rfl, hi, (Host.Outcome.next.inj h).symm⟩)
    · exact .inr (.inr ⟨w, f, alu, rfl, h15, ht, (Host.Outcome.next.inj h).symm⟩)
    · cases h

/-- A machine stopped by its step stays so in a run of any length but zero. -/
theorem run_succ_of_fault {s : State} {p : Fault} (k : Nat) (h : step s = .fault p) :
    Host.Core.run Sys2Proof.core (k + 1) s = .fault p := by
  have h' : Sys2Proof.core.step s = .fault p := h
  simp only [Host.Core.run, h']

theorem run_succ_of_next {s t : State} (k : Nat) (h : step s = .next t) :
    Host.Core.run Sys2Proof.core (k + 1) s = Host.Core.run Sys2Proof.core k t := by
  have h' : Sys2Proof.core.step s = .next t := h
  simp only [Host.Core.run, h']

end Sys2Proof.Machine
end

