-- ==== Sys2Proof/Tests/Slice0.lean ====
section
/-! SUPPORT. Tests: the words of spec/95_test_vectors.md section 2.1 and others written out from R52 and R53,
one step per instruction with the results the vectors of section 2 state, the checks of WellFormed, and a
witness for the hypotheses of each statement. -/

namespace Sys2Proof.Tests

open Sys2Proof Sys2Proof.Machine

/-- A state right after reset with a ROM of four words, the first being `w`, and the registers `A`, `D`,
`E` as given. -/
def start (a d e w : Word) : State :=
  { State.fresh Params.spec [w, 0, 0, 0] with regs := { a := a, d := d, e := e, f := 0, g := 0, h := 0 } }

/-- `start` with the UART's `in` and `out` FIFOs, overflow bit and control Word as given. -/
def startUart (a d w : Word) (i o : List Byte) (io : Bool) (ctl : Word) : State :=
  { start a d 0 w with uart := { inq := i, outq := o, baud := 0x2580, io := io, ctl := ctl } }

/-- A view of the next state, if the outcome is one. -/
def nextOf {α : Type} (view : State → α) (r : Result) : Option α :=
  match r with
  | .next s => some (view s)
  | .fault _ => none
  | .refused _ => none

/-- The fault, if the outcome is one. -/
def faultOf (r : Result) : Option Fault :=
  match r with
  | .next _ => none
  | .fault p => some p
  | .refused _ => none

-- Decoding: each word is written out as its fields stand in R52, bit 15 first ------------------------

/-- Bits 1 and imm15. -/
theorem test_decode_ldi : decodeWord 0b1000110100000111 = .ldi 0x0D07 := by decide

/-- `0x0007` of section 2.1: src None, sw 0, zx 0, tgt None, jmp 111. -/
theorem test_decode_and : decodeWord 0b0000000000000111 = .and
    { src := .none, sw := false, zx := false, tgt := .none, jmp := 0b111 } := by decide

/-- `0x0158` of section 2.1: src None, sw 0, zx 1, tgt D, jmp 000. -/
theorem test_decode_or : decodeWord 0b0000000101011000 = .or
    { src := .none, sw := false, zx := true, tgt := .reg .d, jmp := 0b000 } := by decide

/-- written out from R52 and R53: src E, sw 0, zx 0, tgt A, jmp 101. -/
theorem test_decode_xor : decodeWord 0b0100001000001101 = .xor
    { src := .reg .e, sw := false, zx := false, tgt := .reg .a, jmp := 0b101 } := by decide

/-- `0x2318` of section 2.1: src *A, sw 0, zx 0, tgt D, jmp 000. -/
theorem test_decode_not : decodeWord 0b0010001100011000 = .not
    { src := .starA, sw := false, zx := false, tgt := .reg .d, jmp := 0b000 } := by decide

/-- written out from R52 and R53: src F, sw 1, zx 0, tgt G, jmp 011. -/
theorem test_decode_lsl : decodeWord 0b0101010010110011 = .lsl
    { src := .reg .f, sw := true, zx := false, tgt := .reg .g, jmp := 0b011 } := by decide

/-- `0x5529` of section 2.1: src F, sw 0, zx 0, tgt F, jmp 001. -/
theorem test_decode_lsr : decodeWord 0b0101010100101001 = .lsr
    { src := .reg .f, sw := false, zx := false, tgt := .reg .f, jmp := 0b001 } := by decide

/-- `0x6617` of section 2.1: src G, sw 0, zx 0, tgt *A, jmp 111. -/
theorem test_decode_rol : decodeWord 0b0110011000010111 = .rol
    { src := .reg .g, sw := false, zx := false, tgt := .starA, jmp := 0b111 } := by decide

/-- written out from R52 and R53: src H, sw 0, zx 1, tgt E, jmp 100. -/
theorem test_decode_ror : decodeWord 0b0111011101100100 = .ror
    { src := .reg .h, sw := false, zx := true, tgt := .reg .e, jmp := 0b100 } := by decide

/-- `0x3898` of section 2.1: src D, sw 1, zx 0, tgt D, jmp 000. -/
theorem test_decode_add : decodeWord 0b0011100010011000 = .add
    { src := .reg .d, sw := true, zx := false, tgt := .reg .d, jmp := 0b000 } := by decide

/-- `0x3902` of section 2.1: src D, sw 0, zx 0, tgt None, jmp 010. -/
theorem test_decode_sub : decodeWord 0b0011100100000010 = .sub
    { src := .reg .d, sw := false, zx := false, tgt := .none, jmp := 0b010 } := by decide

/-- `0x0A90` of section 2.1: src None, sw 1, zx 0, tgt *A, jmp 000. -/
theorem test_decode_inc : decodeWord 0b0000101010010000 = .inc
    { src := .none, sw := true, zx := false, tgt := .starA, jmp := 0b000 } := by decide

/-- `0x3B19` of section 2.1: src D, sw 0, zx 0, tgt D, jmp 001. -/
theorem test_decode_dec : decodeWord 0b0011101100011001 = .dec
    { src := .reg .d, sw := false, zx := false, tgt := .reg .d, jmp := 0b001 } := by decide

/-- `0x7CFF` of section 2.1: src H, sw 1, zx 1, tgt H, jmp 111. -/
theorem test_decode_asr : decodeWord 0b0111110011111111 = .asr
    { src := .reg .h, sw := true, zx := true, tgt := .reg .h, jmp := 0b111 } := by decide

/-- `0x0D00` of section 2.1: src None, sw 0, zx 0, tgt None, jmp 000. -/
theorem test_decode_reserved1101 : decodeWord 0b0000110100000000 = .reserved1101
    { src := .none, sw := false, zx := false, tgt := .none, jmp := 0b000 } := by decide

/-- `0x7EFF` of section 2.1: src H, sw 1, zx 1, tgt H, jmp 111. -/
theorem test_decode_reserved1110 : decodeWord 0b0111111011111111 = .reserved1110
    { src := .reg .h, sw := true, zx := true, tgt := .reg .h, jmp := 0b111 } := by decide

/-- `0x2F17` of section 2.1: src *A, sw 0, zx 0, tgt *A, jmp 111. -/
theorem test_decode_reserved1111 : decodeWord 0b0010111100010111 = .reserved1111
    { src := .starA, sw := false, zx := false, tgt := .starA, jmp := 0b111 } := by decide

/-- The encoder gives scenario 2's word back (section 1.2). -/
theorem test_encode_inc : encode (.inc
    { src := .none, sw := true, zx := false, tgt := .starA, jmp := 0b000 }) = 0x0A90 := by decide

-- Well-formedness: one ill-formed term for each check -------------------------------------------------

theorem test_wellFormed_refuses_large_immediate : (Instr.ldi 0x8000).wellFormed = false := by decide
theorem test_wellFormed_accepts_largest_immediate : (Instr.ldi 0x7FFF).wellFormed = true := by decide
theorem test_params_refuse_shared_status_bit :
    ({ Params.spec with iflDa := 2 } : Params).wellFormed = false := by decide
theorem test_params_refuse_shared_control_bit :
    ({ Params.spec with oflIr := 0 } : Params).wellFormed = false := by decide
/-- Z6: `3 + 2 > 4`. -/
theorem test_mapping_past_rom_refused :
    (Mapping.mk 3 2 0x0010).inRange 4 = false := by decide
/-- Z7: `0xFFFF + 2 > 65536`, no wrap to address 0. -/
theorem test_mapping_past_ram_refused :
    (Mapping.mk 0 2 0xFFFF).inRange 4 = false := by decide
theorem test_rom_of_65536_words_refused : romFits (List.replicate 65536 0) = false := by
  rw [romFits, List.length_replicate]
  rfl

-- One step of each instruction (vectors of sections 2.2 to 2.9) --------------------------------------

/-- L3: `A = 0x1234`, `0x8D07` loads `0x0D07` and neither faults nor jumps. -/
theorem test_step_ldi : nextOf (fun t => (t.regs.a, t.pc)) (step (start 0x1234 0 0 0x8D07))
    = some (0x0D07, 1) := by decide
/-- S2: the plain jump. -/
theorem test_step_and : nextOf (fun t => (t.regs.a, t.pc)) (step (start 0x0020 0 0 0x0007))
    = some (0x0020, 0x0020) := by decide
/-- N1: `D = or, E, A`. -/
theorem test_step_or : nextOf (fun t => (t.regs.d, t.pc)) (step (start 0x00AA 0 0xFF00 0x4118))
    = some (0xFFAA, 1) := by decide
/-- N2: `zx` discards the source value. -/
theorem test_step_or_zx : nextOf (fun t => (t.regs.d, t.pc)) (step (start 0x00AA 0 0xFF00 0x4158))
    = some (0x00AA, 1) := by decide
/-- R93's example, `D = xor, E, A`, jumping on negative. -/
theorem test_step_xor : nextOf (fun t => (t.regs.d, t.pc)) (step (start 0xABCD 0 0x1234 0x421C))
    = some (0xB9F9, 0xABCD) := by decide
/-- N8: `D = not, A`. -/
theorem test_step_not : nextOf (fun t => (t.regs.d, t.pc)) (step (start 0x00AA 0 0xFF00 0x4398))
    = some (0xFF55, 1) := by decide
/-- R95's corner case `0x8000 -> 0x0000`, class `eq`, taken. -/
theorem test_step_lsl : nextOf (fun t => (t.regs.d, t.pc)) (step (start 0x0030 0 0x8000 0x441A))
    = some (0x0000, 0x0030) := by decide
/-- R96's corner case `0xFFFF -> 0x7FFF`, never negative, mask `100` not taken. -/
theorem test_step_lsr : nextOf (fun t => (t.regs.d, t.pc)) (step (start 0x0030 0 0xFFFF 0x451C))
    = some (0x7FFF, 1) := by decide
/-- R97's corner case `0x8001 -> 0x0003`. -/
theorem test_step_rol : nextOf (fun t => (t.regs.d, t.pc)) (step (start 0x0030 0 0x8001 0x4618))
    = some (0x0003, 1) := by decide
/-- R98's corner case `0x8001 -> 0xC000`. -/
theorem test_step_ror : nextOf (fun t => (t.regs.d, t.pc)) (step (start 0x0030 0 0x8001 0x4718))
    = some (0xC000, 1) := by decide
/-- S3: target `A` and taken, the PC takes the new `A`. -/
theorem test_step_add : nextOf (fun t => (t.regs.a, t.pc)) (step (start 0x0010 0x0005 0 0x380F))
    = some (0x0015, 0x0015) := by decide
/-- N3: `D = sub, E, A`. -/
theorem test_step_sub : nextOf (fun t => (t.regs.d, t.pc)) (step (start 0x00AA 0 0xFF00 0x4918))
    = some (0xFE56, 1) := by decide
/-- N4: `D = sub, A, E`. -/
theorem test_step_sub_sw : nextOf (fun t => (t.regs.d, t.pc)) (step (start 0x00AA 0 0xFF00 0x4998))
    = some (0x01AA, 1) := by decide
/-- Scenario 2 (section 1.2): `*A = inc, A` stores `0x1001` at `0x1000`. -/
theorem test_step_inc : nextOf (fun t => (t.ram, t.regs.a)) (step (start 0x1000 0 0 0x0A90))
    = some ([(0x1000, 0x1001)], 0x1000) := by decide
/-- S6: `*A = inc, *A` on `0xFFFF` wraps to zero. -/
theorem test_step_inc_wraps : nextOf (fun t => t.ram.read 0x0200)
    (step { start 0x0200 0 0 0x2A10 with ram := [(0x0200, 0xFFFF)] }) = some 0 := by decide
/-- S8: `D = dec, D` from zero. -/
theorem test_step_dec : nextOf (fun t => (t.regs.d, t.pc)) (step (start 0 0 0 0x3B18))
    = some (0xFFFF, 1) := by decide
/-- R103's corner case `0x8000 -> 0xC000`. -/
theorem test_step_asr : nextOf (fun t => (t.regs.d, t.pc)) (step (start 0x0030 0 0x8000 0x4C18))
    = some (0xC000, 1) := by decide
/-- F1. -/
theorem test_step_reserved1101 : faultOf (step (start 0x1234 0 0 0x0D00))
    = some (.invalidOpcode 0 0x0D00) := by decide
/-- F3. -/
theorem test_step_reserved1110 : faultOf (step (start 0x0010 0 0 0x7EFF))
    = some (.invalidOpcode 0 0x7EFF) := by decide
/-- F2. -/
theorem test_step_reserved1111 : faultOf (step (startUart 0x6002 0 0x2F17 [0x41] [] false 0))
    = some (.invalidOpcode 0 0x2F17) := by decide
/-- H4: a halted machine does not move. -/
theorem test_step_halted : nextOf id (step { start 0x0005 0 0 0 with pc := 4 })
    = some { start 0x0005 0 0 0 with pc := 4 } := by decide

-- The UART (vectors of section 2.8) ------------------------------------------------------------------

/-- U1: the byte is dequeued although `zx` discards it. -/
theorem test_uart_zx_dequeues : nextOf (fun t => (t.regs.d, t.uart.inq))
    (step (startUart 0x6002 0 0x2158 [0x41, 0x42] [] false 0)) = some (0x6002, [0x42]) := by decide
/-- U4: only the low byte is enqueued. -/
theorem test_uart_out_low_byte : nextOf (fun t => (t.uart.outq, t.ram))
    (step (startUart 0x6001 0xEDBE 0x3310 [] [] false 0)) = some ([0x41], []) := by decide
/-- U8: `DA` and `OR`. -/
theorem test_uart_status : nextOf (fun t => t.regs.d)
    (step (startUart 0x6003 0 0x2318 [0x41] [] false 0)) = some 0xFFFC := by decide
/-- U15, with short FIFOs: `RU` empties both and clears `IO`. -/
theorem test_uart_ru : nextOf (fun t => t.uart)
    (step (startUart 0x6004 0xFFFE 0x3310 [0x41] [1, 2, 3, 4, 5] true 0))
    = some { inq := [], outq := [], baud := 0x2580, io := false, ctl := 1 } := by decide
/-- U16: `OW` and `IR` change only the control Word. -/
theorem test_uart_ow_ir : nextOf (fun t => t.uart)
    (step (startUart 0x6004 0xFFF9 0x3310 [0x41] [1] true 0))
    = some { inq := [0x41], outq := [1], baud := 0x2580, io := true, ctl := 6 } := by decide
/-- U20: read gives zero, then one is enqueued. -/
theorem test_uart_out_read_modify_write : nextOf (fun t => t.uart.outq)
    (step (startUart 0x6001 0 0x2A10 [] [9] false 0)) = some [9, 1] := by decide

-- The host's operations (sections 2.8 and 2.10) ------------------------------------------------------

/-- B4. -/
theorem test_drain_out : (drainOut (startUart 0 0 0 [] [0x68, 0x69] false 0)).1 = [0x68, 0x69] := by
  decide
/-- Z3: overlapping mappings, the later one wins. -/
theorem test_reset_mappings :
    (hostReset Params.spec [0x1111, 0x2222, 0x3333, 0x4444] [⟨0, 2, 0x0010⟩, ⟨2, 2, 0x0011⟩]).map State.ram
      = .ok [(0x0010, 0x1111), (0x0011, 0x3333), (0x0012, 0x4444)] := by decide
/-- Z10: a mapping over the UART's range fills the cells beneath and not the device. -/
theorem test_reset_mapping_under_uart :
    (hostReset Params.spec [0x1111, 0x2222, 0x3333, 0x4444] [⟨0, 4, 0x6000⟩]).map
        (fun s => (s.ram.read 0x6000, (memRead 0x6000 s).1, (memRead 0x6003 s).1, s.uart.outq))
      = .ok (0x1111, 0, 1, []) := by decide
/-- Z9: zero length beyond the ROM is out of range. -/
theorem test_reset_out_of_range :
    (hostReset Params.spec [0x1111, 0x2222, 0x3333, 0x4444] [⟨5, 0, 0x0010⟩]).map State.ram
      = .error .mappingOutOfRange := by decide

-- Witnesses: states and operands that meet the hypotheses of the statements --------------------------

/-- Fields whose every choice is made by an argument. -/
def fields (src tgt : Operand) (jmp : BitVec 3) : Fields :=
  { src := src, sw := false, zx := false, tgt := tgt, jmp := jmp }

theorem witness_DecodeInvertsEncode :
    (Instr.ldi 0x7FFF).wellFormed = true ∧ (Instr.asr (fields .starA (.reg .h) 7)).wellFormed = true := by
  decide
theorem witness_EncodeInvertsDecode :
    (0x8000 : Word).getLsbD 15 = true ∧ (0x7FFF : Word).getLsbD 15 = false := by decide
theorem witness_StepRunsDecodedInstruction :
    (start 0 0 0 0x0A90).rom[(start 0 0 0 0x0A90).pc.toNat]? = some 0x0A90 := by decide
theorem witness_HaltedMachineNeverMoves :
    ({ start 0 0 0 0 with pc := 4 } : State).rom.length
      ≤ ({ start 0 0 0 0 with pc := 4 } : State).pc.toNat := by decide
theorem witness_FaultedExactlyWhenTheStepFaults : (start 0 0 0 0x0D00).faulted = true := by decide
theorem witness_PcAfterAStep_ldi :
    romFits (start 0 0 0 0x8005).rom = true ∧ (start 0 0 0 0x8005).rom[0]? = some 0x8005
      ∧ (0x8005 : Word).getLsbD 15 = true ∧ ∃ t, step (start 0 0 0 0x8005) = .next t :=
  ⟨by decide, by decide, by decide, _, rfl⟩
theorem witness_PcAfterAStep_compute :
    romFits (start 9 0 0 0x0007).rom = true ∧ (start 9 0 0 0x0007).rom[0]? = some 0x0007
      ∧ (0x0007 : Word).getLsbD 15 = false ∧ ∃ t, step (start 9 0 0 0x0007) = .next t :=
  ⟨by decide, by decide, by decide, _, rfl⟩
theorem witness_LdiLoadsConstantIntoA :
    (0x7FFF : Word).toNat ≤ 0x7FFF ∧ (0x8000 : Word).getLsbD 15 = true
      ∧ (0xFFFF : Word).getLsbD 15 = true := by decide
/-- The hypothesis of BitwiseOperationsCompute, LogicalShiftsCompute, RotatesAndArithmeticShiftCompute,
AddAndSubCompute and IncAndDecCompute. -/
theorem witness_aluInputs :
    aluInputs (fields (.reg .e) .starA 7) (start 0x00AA 0 0xFF00 0) = (0xFF00, 0x00AA) := by decide
theorem witness_SourceReadHappensWhateverTheFlags :
    (Instr.and, fun x y : Word => x &&& y) ∈ computeOps
      ∧ (fields .starA .none 0).src = .starA
      ∧ (startUart 0x6002 0 0 [0x41] [] false 0).reg .a = 0x6002
      ∧ (fields (.reg .d) (.reg .e) 0).src ≠ .starA ∧ (fields (.reg .d) (.reg .e) 0).tgt ≠ .starA :=
  ⟨.head _, by decide, by decide, by decide, by decide⟩
/-- Operands for TakenJumpGoesToPostWriteA, Mask111JumpsUnconditionally and JumpBeyondRomHalts: `and` with
target `A` of the Words `0x8004` and `0x8004`, a ROM of four Words. -/
theorem witness_takenJump :
    (Instr.and, fun x y : Word => x &&& y) ∈ computeOps
      ∧ (0x8004 : Word) = (fun x y : Word => x &&& y)
          (aluInputs (fields (.reg .d) (.reg .a) 7) (start 0x8004 0x8004 0 0)).1
          (aluInputs (fields (.reg .d) (.reg .a) 7) (start 0x8004 0x8004 0 0)).2
      ∧ (fields (.reg .d) (.reg .a) 7).jmp
          &&& (match signClass 0x8004 with | .lt => 0b100 | .eq => 0b010 | .gt => 0b001) ≠ 0#3
      ∧ taken (fields (.reg .d) (.reg .a) 7).jmp (signClass 0x8004) = true
      ∧ (start 0x8004 0x8004 0 0).rom.length ≤ (0x8004 : Word).toNat :=
  ⟨.head _, by decide, by decide, by decide, by decide⟩
/-- Operands at any address, so at the one of each clause, and addresses beside and at the ends of the
device's range. -/
theorem witness_StarASourceAndTargetReadBeforeWrite :
    (Instr.and, fun x y : Word => x &&& y) ∈ computeOps
      ∧ (fields .starA .starA 0).src = .starA ∧ (fields .starA .starA 0).tgt = .starA
      ∧ (∀ a : Word, (start a 0 0 0).reg .a = a
          ∧ normalise (memRead a (start a 0 0 0)).1 a false false = ((memRead a (start a 0 0 0)).1, a))
      ∧ ¬ InMmio (0x5FFF : Word).toNat ∧ ¬ InMmio (0x6005 : Word).toNat
      ∧ InMmio (0x6000 : Word).toNat ∧ InMmio (0x6004 : Word).toNat :=
  ⟨.head _, rfl, rfl, fun _ => ⟨rfl, rfl⟩, by decide⟩
theorem witness_NoTargetNoJumpOnlyAdvancesPc :
    (fields (.reg .d) .none 0).tgt = .none ∧ (fields (.reg .d) .none 0).jmp = 0b000
      ∧ (fields (.reg .d) .none 0).src ≠ .starA := by decide
/-- The two ends of the range of the difference. -/
theorem witness_SubComparesWithinRange :
    (start 0x0000 0x7FFF 0 0).reg .d = 0x7FFF ∧ (start 0x0000 0x7FFF 0 0).reg .a = 0x0000
      ∧ (0x7FFF : Word).toInt - (0x0000 : Word).toInt ≤ 32767
      ∧ -32768 ≤ (0x8000 : Word).toInt - (0x0000 : Word).toInt := by decide
theorem witness_WrittenOperandsReachTheAlu :
    binaryFields .regA .d (.reg .d) 0
      = some { src := .reg .d, sw := true, zx := false, tgt := .reg .d, jmp := 0 }
      ∧ writtenSource .ind = some .starA := by decide
/-- The first and the last address of the device's range, and the addresses beside it. -/
theorem witness_AddressDecoderDispatch :
    [UartReg.uBaud, .uOut, .uIn, .uIfl, .uOfl][(0x6000 : Word).toNat - 0x6000]? = some .uBaud
      ∧ [UartReg.uBaud, .uOut, .uIn, .uIfl, .uOfl][(0x6004 : Word).toNat - 0x6000]? = some .uOfl
      ∧ ¬ InMmio (0x5FFF : Word).toNat ∧ ¬ InMmio (0x6005 : Word).toNat := by decide
theorem witness_RamReadsWhatWasLastWritten :
    ¬ InMmio (0x0000 : Word).toNat ∧ ¬ InMmio (0xFFFF : Word).toNat ∧ (1 : Nat) ≠ (0 : Word).toNat := by
  decide
/-- A step, and the two ends of the device's range. Also the hypothesis of StoresNeverAffectFetch. -/
theorem witness_ShadowedCellsKeepTheirValue :
    (∃ t, step (start 0x6000 0 0 0x3310) = .next t) ∧ InMmio 0x6000 ∧ InMmio 0x6004 :=
  ⟨⟨_, rfl⟩, by decide, by decide⟩
/-- Two different states that agree off the UART. -/
theorem witness_ShadowedCellsAreInvisible :
    ({ start 0 0 0 0x3310 with ram := [(0x6000, 1)] } : State).agreesOffUart (start 0 0 0 0x3310)
      ∧ ({ start 0 0 0 0x3310 with ram := [(0x6000, 1)] } : State) ≠ start 0 0 0 0x3310 := by
  refine ⟨⟨rfl, rfl, rfl, rfl, rfl, fun a h => ?_⟩, by decide⟩
  have ha : (0x6000 : Nat) ≠ a := fun e => h (e ▸ ⟨Nat.le_refl _, by decide⟩)
  show (if 0x6000 = a then (1 : Word) else 0) = 0
  rw [if_neg ha]
theorem witness_StepWritesAtMostTheCellAtA :
    ∃ t, step (start 0x1000 0 0 0x0A90) = .next t
      ∧ t.ram.read 0x1000 ≠ (start 0x1000 0 0 0x0A90).ram.read 0x1000 :=
  ⟨_, rfl, by decide⟩
theorem witness_OnlyUInReadHasSideEffect : (0x6001 : Word) ≠ 0x6002 ∧ (0x6002 : Word) = 0x6002 := by
  decide
theorem witness_UOutWriteEnqueuesLowByte :
    (startUart 0 0 0 [] (List.replicate 255 0) false 0).uart.outq.length < 256
      ∧ 256 ≤ (startUart 0 0 0 [] (List.replicate 256 0) false 0).uart.outq.length :=
  ⟨List.length_replicate.trans_lt (by decide), List.length_replicate.ge⟩
theorem witness_UInReadDequeues :
    (startUart 0 0 0 [] [] false 0).uart.inq = []
      ∧ (startUart 0 0 0 [0x41, 0x42] [] false 0).uart.inq = 0x41 :: [0x42] := by decide
theorem witness_StatusRegisterBits : (start 0 0 0 0).params.wellFormed = true := by decide
theorem witness_ControlRegisterStoresAndResets :
    (0x0001 : Word).getLsbD (start 0 0 0 0).params.oflRu.val = true
      ∧ (0xFFFE : Word).getLsbD (start 0 0 0 0).params.oflRu.val = false := by decide
theorem witness_OverflowBitIsSticky :
    (∃ t, step (startUart 0x6004 0xFFFE 0x3310 [] [] true 0) = .next t)
      ∧ (startUart 0x6004 0xFFFE 0x3310 [] [] true 0).uart.io = true
      ∧ (∃ t, step (startUart 0x6004 0xFFFE 0x3310 [] [] false 0) = .next t)
      ∧ (startUart 0x6004 0xFFFE 0x3310 [] [] false 0).uart.io = false
      ∧ (∃ s, hostReset Params.spec [0x8005] [] = .ok s) :=
  ⟨⟨_, rfl⟩, rfl, ⟨_, rfl⟩, rfl, _, rfl⟩
/-- A full FIFO, for FeedInKeepsWhatFits and OverflowBitIsSticky. -/
theorem witness_FeedInKeepsWhatFits :
    (startUart 0 0 0 (List.replicate 256 0) [] false 0).uart.inq.length ≤ 256 :=
  List.length_replicate.le
theorem witness_DrainOutReturnsWrittenBytesInOrder :
    (startUart 0 0 0 [] (List.replicate 254 0) false 0).uart.outq.length
      + [(0x68 : Word), 0x69].length ≤ 256 := by
  have h : (startUart 0 0 0 [] (List.replicate 254 0) false 0).uart.outq.length = 254 :=
    List.length_replicate
  rw [h]
  decide
theorem witness_UInReturnsFedBytesInOrder :
    (startUart 0 0 0 (List.replicate 254 0) [] false 0).uart.inq.length
      + [(0x68 : Byte), 0x69].length ≤ 256 := by
  have h : (startUart 0 0 0 (List.replicate 254 0) [] false 0).uart.inq.length = 254 :=
    List.length_replicate
  rw [h]
  decide
/-- A reset that succeeds, for ResetZeroesRegistersAndPc, ResetEmptiesTheUart and ResetEntersAtRomZero (its
last clause with the empty ROM). -/
theorem witness_hostReset :
    (∃ s, hostReset Params.spec [0x8005, 0x3818] [⟨0, 2, 0xFFFE⟩] = .ok s)
      ∧ ∃ s, hostReset Params.spec [] [] = .ok s :=
  ⟨⟨_, rfl⟩, _, rfl⟩
/-- A reset followed by steps and host calls other than a reset. -/
theorem witness_ResetInstallsTheWholeRom :
    ∃ s, hostReset Params.spec [0x8005, 0x3818] [] = .ok s
      ∧ (∀ rom' maps', Event.host (.reset rom' maps') ∉ [Event.core, .host (.feedIn [0x68]), .core])
      ∧ ∃ t, interleave [.core, .host (.feedIn [0x68]), .core] s = some t :=
  ⟨_, rfl, by simp, _, rfl⟩
/-- The first cell of a mapping, with a later mapping that does not cover it, and a cell none covers. -/
theorem witness_ResetRamHoldsTheLastMapping :
    (∃ s, hostReset Params.spec [1, 2, 3, 4] [⟨0, 2, 0x0010⟩, ⟨2, 2, 0x0011⟩] = .ok s)
      ∧ coversCell ⟨0, 2, 0x0010⟩ 0x0010 ∧ ¬ coversCell ⟨2, 2, 0x0011⟩ 0x0010
      ∧ ¬ coversCell ⟨0, 2, 0x0010⟩ 0x0013 ∧ ¬ coversCell ⟨2, 2, 0x0011⟩ 0x0013 := by
  refine ⟨⟨_, rfl⟩, ?_⟩
  unfold coversCell
  decide
/-- Program P4 of section 3. -/
theorem witness_ConstsAreInRamAfterReset :
    (∃ s, hostReset Params.spec
        (imageWithConsts [0xC000, 0x2318, 0x3318, 0x8006, 0x0007] [0xBEEF] 0x4000).1
        (imageWithConsts [0xC000, 0x2318, 0x3318, 0x8006, 0x0007] [0xBEEF] 0x4000).2 = .ok s)
      ∧ [(0xBEEF : Word)][0]? = some 0xBEEF :=
  ⟨⟨_, rfl⟩, rfl⟩
theorem witness_StepKeepsTheInvariant :
    (start 0x1000 0 0 0x0A90).Inv ∧ ∃ t, step (start 0x1000 0 0 0x0A90) = .next t :=
  ⟨by decide, _, rfl⟩
theorem witness_HostCallsKeepTheInvariant :
    (start 0 0 0 0).Inv ∧ (∃ t, hostCall (.reset [0x8005] []) (start 0 0 0 0) = some t)
      ∧ (∃ t, hostCall (.feedIn [0x68]) (start 0 0 0 0) = some t)
      ∧ ∃ t, hostCall .drainOut (start 0 0 0 0) = some t :=
  ⟨by decide, ⟨_, rfl⟩, ⟨_, rfl⟩, _, rfl⟩
theorem witness_InterleavedRunsKeepTheInvariant :
    (start 0 0 0 0x8005).Inv
      ∧ ∃ t, interleave [.core, .host (.feedIn [0x68]), .core] (start 0 0 0 0x8005) = some t :=
  ⟨by decide, _, rfl⟩
/-- The word under test is the first instruction after reset. -/
theorem test_withFetchWord : nextOf (fun t => (t.regs.a, t.pc)) (step (State.reset.withFetchWord 16 0x8005))
    = some (5, 1) := by decide

end Sys2Proof.Tests
end

/-! PROOFS. The invariant: reset establishes it, and every step and every call of the host keeps it. -/

namespace Sys2Proof.Machine

-- What keeps the invariant, operation by operation ---------------------------------------------------

/-- Only the FIFOs of a new device matter to the invariant. -/
theorem State.Inv.withUart {s : State} {u : Uart} (h : s.Inv) (hi : u.inq.length ≤ Config.fifoCap)
    (ho : u.outq.length ≤ Config.fifoCap) : ({ s with uart := u } : State).Inv := by
  obtain ⟨hram, -, -, hrom, hparams⟩ := h
  exact ⟨hram, hi, ho, hrom, hparams⟩

/-- Only the canonical form of a new RAM matters to the invariant. -/
theorem State.Inv.withRam {s : State} {m : Memory} (h : s.Inv) (hm : m.wf = true) :
    ({ s with ram := m } : State).Inv := by
  obtain ⟨-, hin, hout, hrom, hparams⟩ := h
  exact ⟨hm, hin, hout, hrom, hparams⟩

/-- The invariant does not speak of the registers. -/
theorem State.Inv.setReg {s : State} (h : s.Inv) (q : Reg) (v : Word) : (s.setReg q v).Inv := h

/-- The invariant does not speak of the PC. -/
theorem State.Inv.setPc {s : State} (h : s.Inv) (v : Word) : (s.setPc v).Inv := h

theorem State.Inv.memRead {s : State} (h : s.Inv) (a : Word) : (memRead a s).2.Inv := by
  have ⟨_, hin, hout, _, _⟩ := h
  rcases memRead_cases a s with ⟨r, -, e⟩ | ⟨-, e⟩ <;> rw [e]
  · have ⟨hin', hout'⟩ := Uart.read_length_le (p := s.params) (r := r) hin hout
    exact h.withUart hin' hout'
  · exact h

theorem State.Inv.memWrite {s : State} (h : s.Inv) (a v : Word) : (memWrite a v s).Inv := by
  have ⟨hram, hin, hout, _, _⟩ := h
  rcases memWrite_cases a v s with ⟨r, -, e⟩ | ⟨-, e⟩ <;> rw [e]
  · have ⟨hin', hout'⟩ := Uart.write_length_le (p := s.params) (r := r) (v := v) hin hout
    exact h.withUart hin' hout'
  · exact h.withRam (Memory.wf_write hram a.isLt)

theorem State.Inv.sourceValue {s : State} (h : s.Inv) (src : Operand) (a0 : Word) :
    (sourceValue src a0 s).2.Inv := by
  cases src with
  | none => exact h
  | reg r => exact h
  | starA => exact h.memRead a0

theorem State.Inv.writeTarget {s : State} (h : s.Inv) (tgt : Operand) (a0 r : Word) :
    (writeTarget tgt a0 r s).Inv := by
  cases tgt with
  | none => exact h
  | reg q => exact h.setReg q r
  | starA => exact h.memWrite a0 r

/-- Whatever the ALU function is: source read, target write and PC update each keep the invariant. -/
theorem State.Inv.compute {s : State} (h : s.Inv) (alu : Word → Word → Word) (f : Fields) :
    (compute alu f s).Inv := by
  rw [compute_eq]
  exact ((h.sourceValue f.src (s.reg .a)).writeTarget f.tgt (s.reg .a) _).setPc _

/-- Settles O54, by the three things a step that answers a next state can do (`step_cases`). -/
theorem stepKeepsTheInvariant : Obligations.StepKeepsTheInvariant := by
  intro s t hs hstep
  rcases step_cases hstep with ⟨-, rfl⟩ | ⟨w, imm, -, -, rfl⟩ | ⟨w, f, alu, -, -, -, rfl⟩
  · exact hs
  · exact (hs.setReg .a (imm &&& 0x7FFF)).setPc (s.pc + 1)
  · exact hs.compute alu f

-- The host's calls -----------------------------------------------------------------------------------

/-- A byte pushed by the host keeps `uart.in` within its capacity (R138). -/
theorem Uart.push_inq_length_le {u : Uart} (b : Byte) (h : u.inq.length ≤ Config.fifoCap) :
    (u.push b).inq.length ≤ Config.fifoCap := by
  rcases Nat.lt_or_ge u.inq.length Config.fifoCap with hlt | hge
  · rw [Uart.push_of_lt hlt, List.length_append]
    exact hlt
  · rw [Uart.push_of_le hge]
    exact h

/-- A byte pushed by the host leaves `uart.out` alone. -/
theorem Uart.push_outq (u : Uart) (b : Byte) : (u.push b).outq = u.outq := by
  rcases Nat.lt_or_ge u.inq.length Config.fifoCap with hlt | hge
  · rw [Uart.push_of_lt hlt]
  · rw [Uart.push_of_le hge]

theorem Uart.foldl_push_inq_length_le (bytes : List Byte) {u : Uart}
    (h : u.inq.length ≤ Config.fifoCap) :
    (bytes.foldl Uart.push u).inq.length ≤ Config.fifoCap := by
  induction bytes generalizing u with
  | nil => exact h
  | cons b bytes ih => exact ih (Uart.push_inq_length_le b h)

theorem Uart.foldl_push_outq (bytes : List Byte) (u : Uart) :
    (bytes.foldl Uart.push u).outq = u.outq := by
  induction bytes generalizing u with
  | nil => rfl
  | cons b bytes ih => exact (ih (u.push b)).trans (u.push_outq b)

/-- A mapping that is in range keeps RAM in canonical form. -/
theorem wf_applyMapping {rom : List Word} {m : Mapping} {ram : Memory} (h : ram.wf = true)
    (hm : m.inRange rom.length = true) : (applyMapping rom m ram).wf = true := by
  simp only [Mapping.inRange, Bool.and_eq_true, decide_eq_true_eq] at hm
  have hlen := List.length_take_le m.length.toNat (rom.drop m.romAddr.toNat)
  exact wf_copyWords h (by omega)

theorem wf_applyMappings {rom : List Word} {maps : List Mapping} {ram : Memory} (h : ram.wf = true)
    (hmaps : maps.all (Mapping.inRange rom.length) = true) :
    (applyMappings rom maps ram).wf = true := by
  induction maps generalizing ram with
  | nil => exact h
  | cons m maps ih =>
    rw [List.all_cons, Bool.and_eq_true] at hmaps
    obtain ⟨hm, hmaps⟩ := hmaps
    exact ih (wf_applyMapping h hm) hmaps

/-- The fresh machine meets the invariant when its ROM fits and its bit positions are distinct. -/
theorem State.fresh_inv {p : Params} {rom : List Word} (hrom : romFits rom = true)
    (hp : p.wellFormed = true) : (State.fresh p rom).Inv :=
  ⟨rfl, Nat.zero_le _, Nat.zero_le _, hrom, hp⟩

/-- A successful reset establishes the invariant, whatever the state was before (R171, R173). -/
theorem hostReset_inv {p : Params} {rom : List Word} {maps : List Mapping} {s : State}
    (hp : p.wellFormed = true) (h : hostReset p rom maps = .ok s) : s.Inv := by
  obtain ⟨hrom, hmaps, rfl⟩ := (hostReset_ok_iff p rom maps s).mp h
  exact (State.fresh_inv hrom hp).withRam (wf_applyMappings rfl hmaps)

/-- Settles O55, by the three calls of the host (`hostCall_cases`). -/
theorem hostCallsKeepTheInvariant : Obligations.HostCallsKeepTheInvariant := by
  intro c s t hs hcall
  have ⟨_, hin, hout, _, hparams⟩ := hs
  rcases hostCall_cases hcall with ⟨rom, maps, -, hreset⟩ | ⟨bytes, -, rfl⟩ | ⟨-, rfl⟩
  · exact hostReset_inv hparams hreset
  · exact hs.withUart (Uart.foldl_push_inq_length_le bytes hin)
      ((Uart.foldl_push_outq bytes s.uart).symm ▸ hout)
  · exact hs.withUart hin (Nat.zero_le _)

-- Steps and host calls in any order ------------------------------------------------------------------

/-- A step of the core as an event: the next state of the step, or no change when it stops (R155). -/
theorem perform_core_cases {s t : State} (h : perform .core s = some t) :
    step s = .next t ∨ t = s := by
  cases hstep : step s with
  | next u =>
    have hut : u = t := by simpa [perform, hstep] using h
    exact .inl (congrArg _ hut)
  | fault r => exact .inr (by simpa [perform, hstep] using h.symm)
  | refused r => exact .inr (by simpa [perform, hstep] using h.symm)

/-- A run that begins with the event `e` leaves a state exactly when `e` does and the rest does after it. -/
theorem interleave_cons_eq_some_iff {e : Event} {es : List Event} {s t : State} :
    interleave (e :: es) s = some t ↔ ∃ u, perform e s = some u ∧ interleave es u = some t := by
  cases hu : perform e s <;> simp [interleave, hu]

/-- What each event of a run keeps, the run keeps. -/
theorem interleave_preserves {P : State → Prop} {es : List Event} {s t : State}
    (hP : ∀ e ∈ es, ∀ u v, P u → perform e u = some v → P v) (hs : P s)
    (h : interleave es s = some t) : P t := by
  induction es generalizing s with
  | nil => exact Option.some.inj h ▸ hs
  | cons e es ih =>
    obtain ⟨u, he, hes⟩ := interleave_cons_eq_some_iff.mp h
    have hu : P u := hP e List.mem_cons_self s u hs he
    exact ih (fun d hd => hP d (List.mem_cons_of_mem e hd)) hu hes

theorem State.Inv.perform {e : Event} {s t : State} (hs : s.Inv) (h : perform e s = some t) :
    t.Inv := by
  cases e with
  | host c => exact hostCallsKeepTheInvariant c s t hs h
  | core =>
    rcases perform_core_cases h with hstep | rfl
    · exact stepKeepsTheInvariant s t hs hstep
    · exact hs

/-- Settles O56: each event keeps the invariant, and so does a run of them. -/
theorem interleavedRunsKeepTheInvariant : Obligations.InterleavedRunsKeepTheInvariant := by
  intro es s t hs h
  exact interleave_preserves (fun e _ u v hu he => hu.perform he) hs h

-- Reset ----------------------------------------------------------------------------------------------

/-- Settles O53: `State.reset` is the fresh machine with an empty ROM and the spec's bit positions. -/
theorem resetMeetsTheInvariant : Obligations.ResetMeetsTheInvariant :=
  State.fresh_inv (by decide) (by decide)

end Sys2Proof.Machine

/-! PROOFS. The state: the halted machine, the PC after a step, and what a reset leaves in registers and RAM. -/

namespace Sys2Proof.Machine

-- The halted machine ---------------------------------------------------------------------------------

/-- At or beyond the end of the ROM nothing is fetched, so the step changes nothing (R16). -/
theorem step_of_length_le_pc {s : State} (h : s.rom.length ≤ s.pc.toNat) : step s = .next s := by
  have hfetch : s.fetch = none := by rw [State.fetch_eq, List.getElem?_eq_none h]
  exact step_of_fetch_none hfetch

/-- Settles O5, by induction on the number of steps. -/
theorem haltedMachineNeverMoves : Obligations.HaltedMachineNeverMoves := by
  intro k s h
  induction k with
  | zero => rfl
  | succ k ih => rw [run_succ_of_next k (step_of_length_le_pc h), ih]

-- The PC after a step --------------------------------------------------------------------------------

/-- Bit 15 selects format I (R50, R51). -/
theorem decodeWord_of_bit15 {w : Word} (h : w.getLsbD 15 = true) :
    decodeWord w = .ldi (w &&& 0x7FFF) := by
  rw [decodeWord, if_pos h]

/-- A format I word has bit 15 set, whatever its immediate is (R70). -/
theorem encodeFormatI_bit15 (imm : Word) : (encodeFormatI imm)[15] = true := by
  simp [encodeFormatI]

/-- The next address does not wrap: a PC that fetches a Word of a ROM that fits is below 65535 (R4). -/
theorem toNat_pc_add_one {s : State} {w : Word} (hfits : romFits s.rom = true)
    (hw : s.rom[s.pc.toNat]? = some w) : (s.pc + 1).toNat = s.pc.toNat + 1 := by
  have hlen : s.rom.length ≤ 65535 := of_decide_eq_true hfits
  obtain ⟨hlt, -⟩ := List.getElem?_eq_some_iff.mp hw
  bv_omega

/-- Whatever the ALU function is, a compute instruction ends at the next address or at the `A` of after
the target write (R111, R112). -/
theorem compute_pc (alu : Word → Word → Word) (f : Fields) (s : State) :
    (compute alu f s).pc = s.pc + 1 ∨ (compute alu f s).pc = (compute alu f s).reg .a := by
  rw [compute_eq]
  simp only [State.setPc_pc, State.reg_setPc, writeTarget_pc, sourceValue_pc]
  split
  · exact .inr rfl
  · exact .inl rfl

/-- Settles O10, by the three things a step that answers a next state can do (`step_cases`): the first
needs a halted machine, and the last an instruction whose Word has bit 15 clear. -/
theorem pcAfterAStep : Obligations.PcAfterAStep := by
  intro s t w hfits hw hstep
  have hsucc := toNat_pc_add_one hfits hw
  have hfetch : s.fetch = some w := s.fetch_eq.trans hw
  rcases step_cases hstep with ⟨hnone, -⟩ | ⟨v, imm, -, -, rfl⟩ | ⟨v, f, alu, hv, h15, -, rfl⟩
  · rw [hfetch] at hnone
    contradiction
  · exact ⟨fun _ => hsucc, fun _ => .inl hsucc⟩
  · obtain rfl : w = v := Option.some.inj (hfetch.symm.trans hv)
    constructor
    · intro hbit
      rw [decodeWord_of_bit15 hbit] at h15
      exact absurd (encodeFormatI_bit15 _) (Bool.eq_false_iff.mp h15)
    · intro _
      rcases compute_pc alu f s with hpc | hpc
      · exact .inl (hpc ▸ hsucc)
      · exact .inr hpc

-- What a reset leaves --------------------------------------------------------------------------------

/-- Settles O47: a reset adds only RAM contents to the fresh state. -/
theorem resetZeroesRegistersAndPc : Obligations.ResetZeroesRegistersAndPc := by
  refine ⟨State.fresh_reg _ _, State.fresh_pc _ _, fun p rom maps s h => ?_⟩
  obtain ⟨-, -, rfl⟩ := (hostReset_ok_iff p rom maps s).mp h
  exact ⟨State.fresh_reg p rom, State.fresh_pc p rom⟩

/-- A mapping leaves the cells it does not cover alone (R171). -/
theorem read_applyMapping_of_not_coversCell {rom : List Word} {m : Mapping} {ram : Memory} {a : Nat}
    (h : ¬ coversCell m a) : (applyMapping rom m ram).read a = ram.read a := by
  rw [applyMapping, read_copyWords]
  split
  · next hle =>
    have hend : m.length.toNat ≤ a - m.ramAddr.toNat := by
      unfold coversCell at h
      omega
    rw [List.getElem?_eq_none ((List.length_take_le _ _).trans hend), Option.getD_none]
  · rfl

/-- A mapping in range copies to each cell it covers the ROM Word at the same distance from its start
(R171, R173). -/
theorem getElem?_eq_read_applyMapping_of_coversCell {rom : List Word} {m : Mapping} {ram : Memory}
    {a : Nat} (hm : m.inRange rom.length = true) (h : coversCell m a) :
    rom[m.romAddr.toNat + (a - m.ramAddr.toNat)]? = some ((applyMapping rom m ram).read a) := by
  obtain ⟨hle, hlt⟩ := h
  simp only [Mapping.inRange, Bool.and_eq_true, decide_eq_true_eq] at hm
  obtain ⟨hrom, -⟩ := hm
  have hin : m.romAddr.toNat + (a - m.ramAddr.toNat) < rom.length := by omega
  rw [applyMapping, read_copyWords, if_pos hle, List.getElem?_take_of_lt (by omega),
    List.getElem?_drop, List.getElem?_eq_getElem hin, Option.getD_some]

theorem applyMappings_append (rom : List Word) (before after : List Mapping) (ram : Memory) :
    applyMappings rom (before ++ after) ram
      = applyMappings rom after (applyMappings rom before ram) := by
  induction before generalizing ram with
  | nil => rfl
  | cons m before ih => exact ih (applyMapping rom m ram)

theorem read_applyMappings_of_not_coversCell {rom : List Word} {maps : List Mapping} {ram : Memory}
    {a : Nat} (h : ∀ m ∈ maps, ¬ coversCell m a) :
    (applyMappings rom maps ram).read a = ram.read a := by
  induction maps generalizing ram with
  | nil => rfl
  | cons m maps ih =>
    rw [List.forall_mem_cons] at h
    obtain ⟨hm, hmaps⟩ := h
    rw [applyMappings, ih hmaps, read_applyMapping_of_not_coversCell hm]

/-- Settles O48: the mappings after the last covering one leave its cell alone, and it overwrites what
those before it left. -/
theorem resetRamHoldsTheLastMapping : Obligations.ResetRamHoldsTheLastMapping := by
  intro p rom maps s h
  obtain ⟨-, hmaps, rfl⟩ := (hostReset_ok_iff p rom maps s).mp h
  constructor
  · intro a hnone
    exact read_applyMappings_of_not_coversCell hnone
  · rintro before m after a rfl hcovers hafter
    have hm : m.inRange rom.length = true := List.all_eq_true.mp hmaps m (by simp)
    dsimp only
    rw [applyMappings_append, applyMappings, read_applyMappings_of_not_coversCell hafter]
    exact getElem?_eq_read_applyMapping_of_coversCell hm hcovers

end Sys2Proof.Machine

/-! PROOFS. RAM, the address decoder and ROM: what an access reaches, what a step can store, and that no run
depends on the RAM cells under the UART. -/

namespace Sys2Proof.Machine

-- The address decoder --------------------------------------------------------------------------------

theorem memRead_of_mmio {a : Word} {r : UartReg} (h : mmio a = some r) (s : State) :
    memRead a s = ((s.uart.read s.params r).1, { s with uart := (s.uart.read s.params r).2 }) := by
  simp only [memRead, h]

theorem memWrite_of_mmio {a : Word} {r : UartReg} (h : mmio a = some r) (v : Word) (s : State) :
    memWrite a v s = { s with uart := s.uart.write s.params r v } := by
  simp only [memWrite, h]

/-- Outside the device's range a read is a read of RAM (R33). -/
theorem memRead_of_not_inMmio {a : Word} (h : ¬ InMmio a.toNat) (s : State) :
    memRead a s = (s.ram.read a.toNat, s) := by
  simp only [memRead, (mmio_eq_none_iff a).mpr h]

/-- Outside the device's range a write is a write of RAM (R34). -/
theorem memWrite_of_not_inMmio {a : Word} (h : ¬ InMmio a.toNat) (v : Word) (s : State) :
    memWrite a v s = { s with ram := s.ram.write a.toNat v } := by
  simp only [memWrite, (mmio_eq_none_iff a).mpr h]

/-- The UART registers stand at `0x6000` and after it in the order of their indices (R126). -/
theorem mmio_of_index {a : Word} {u : UartReg} (ha : 0x6000 ≤ a.toNat)
    (h : [UartReg.uBaud, .uOut, .uIn, .uIfl, .uOfl][a.toNat - 0x6000]? = some u) :
    mmio a = some u := by
  obtain ⟨i, hi⟩ := Nat.exists_eq_add_of_le ha
  rw [hi, Nat.add_sub_cancel_left] at h
  have hlt : i < 5 := (List.getElem?_eq_some_iff.mp h).1
  obtain rfl : a = BitVec.ofNat 16 (0x6000 + i) := by
    rw [← hi, BitVec.ofNat_toNat, BitVec.setWidth_eq]
  interval_cases i <;> exact h

/-- Settles O29: the index determines the device, and outside the range there is none. -/
theorem addressDecoderDispatch : Obligations.AddressDecoderDispatch := by
  intro a v s
  refine ⟨fun u hu ha => ?_, fun h => ⟨memRead_of_not_inMmio h s, memWrite_of_not_inMmio h v s⟩⟩
  have hm := mmio_of_index ha hu
  exact ⟨memRead_of_mmio hm s, memWrite_of_mmio hm v s⟩

/-- A store through the address decoder reaches the RAM cell at its address, unless a device stands
there, and no other cell (R34, R35). -/
theorem memWrite_ram_read (a v : Word) (s : State) (b : Nat) :
    (memWrite a v s).ram.read b =
      if b = a.toNat ∧ ¬ InMmio b then v else s.ram.read b := by
  rcases memWrite_cases a v s with ⟨r, hr, e⟩ | ⟨hnone, e⟩ <;> rw [e]
  · have hin : InMmio a.toNat := by
      by_contra h
      rw [(mmio_eq_none_iff a).mpr h] at hr
      cases hr
    rw [if_neg]
    rintro ⟨rfl, hout⟩
    exact hout hin
  · have hout : ¬ InMmio a.toNat := (mmio_eq_none_iff a).mp hnone
    have hiff : (b = a.toNat ∧ ¬ InMmio b) ↔ b = a.toNat := and_iff_left_of_imp fun hb => hb ▸ hout
    simp only [hiff, Memory.read_write]

/-- Settles O30: outside the device's range both accesses are RAM's own. -/
theorem ramReadsWhatWasLastWritten : Obligations.RamReadsWhatWasLastWritten := by
  intro a v s h
  constructor
  · rw [memRead_of_not_inMmio h, memWrite_ram_read, if_pos ⟨rfl, h⟩]
  · intro b hb
    rw [memWrite_ram_read, if_neg fun hba => hb hba.1]

theorem mmio_eq_uIn_iff (a : Word) : mmio a = some .uIn ↔ a = 0x6002 := by
  constructor
  · intro h
    unfold mmio at h
    split_ifs at h <;> cases h
    assumption
  · rintro rfl
    rfl

/-- What a read through the address decoder does to the state (R39). -/
theorem memRead_snd (a : Word) (s : State) :
    (memRead a s).2 =
      if a = 0x6002 then { s with uart := { s.uart with inq := s.uart.inq.tail } } else s := by
  cases hm : mmio a with
  | none =>
    have ha : a ≠ 0x6002 := by
      rintro rfl
      cases hm
    rw [memRead_of_not_inMmio ((mmio_eq_none_iff a).mp hm), if_neg ha]
  | some r =>
    have hr : r = .uIn ↔ a = 0x6002 := by rw [← mmio_eq_uIn_iff, hm, Option.some_inj]
    rw [memRead_of_mmio hm, Uart.read_snd]
    by_cases ha : a = 0x6002
    · rw [if_pos (hr.mpr ha), if_pos ha]
    · rw [if_neg (mt hr.mp ha), if_neg ha]

/-- Settles O35: the two cases of `memRead_snd`. -/
theorem onlyUInReadHasSideEffect : Obligations.OnlyUInReadHasSideEffect := by
  intro a s
  rw [memRead_snd]
  exact ⟨fun ha => if_neg ha, fun ha => if_pos ha⟩

-- What a step can store ------------------------------------------------------------------------------

/-- Every operation code is that of its instruction (R54, R55). -/
theorem encode_instrOfOp (op : BitVec 4) (f : Fields) :
    encode (instrOfOp op f) = encodeFormatC op f := by
  obtain ⟨n, hn⟩ := op
  interval_cases n <;> rfl

/-- A Word whose instruction encodes with bit 15 clear has bit 15 clear itself. -/
theorem bit15_of_encode_decodeWord {w : Word} (h : (encode (decodeWord w))[15] = false) :
    w.getLsbD 15 = false := by
  by_contra hw
  rw [decodeWord_of_bit15 (Bool.eq_true_of_not_eq_false hw)] at h
  exact absurd (encodeFormatI_bit15 _) (Bool.eq_false_iff.mp h)

/-- The target of a format C word is the one its bits 5 to 3 name (R52, R53). -/
theorem encode_decodeWord_tgt {w : Word} (h : w.getLsbD 15 = false) :
    (encode (decodeWord w)).extractLsb' 3 3 = w.extractLsb' 3 3 := by
  rw [decodeWord, if_neg (Bool.eq_false_iff.mp h), encode_instrOfOp, encodeFormatC_tgt]
  exact operandCode_operandOfCode _

section
variable (alu : Word → Word → Word) (f : Fields) (s : State)

/-- A compute instruction stores at most its result, at the address in `A`, on plain RAM (R40, R84). -/
theorem compute_ram_read (b : Nat) :
    (compute alu f s).ram.read b =
      if f.tgt = .starA ∧ b = (s.reg .a).toNat ∧ ¬ InMmio b
      then alu (aluInputs f s).1 (aluInputs f s).2 else s.ram.read b := by
  simp only [compute_eq, State.setPc_ram, writeTarget_ram]
  by_cases ht : f.tgt = .starA
  · simp only [ht, if_true, true_and, memWrite_ram_read, sourceValue_ram]
  · simp only [ht, if_false, false_and, sourceValue_ram]

theorem compute_rom : (compute alu f s).rom = s.rom := by
  simp only [compute_eq, State.setPc_rom, writeTarget_rom, sourceValue_rom]

end

/-- Everything a step that answers a next state can do to a RAM cell: nothing, or a store by a compute
instruction with target `*A`, at the address in `A` and outside the device's range. -/
theorem step_ram_read_cases {s t : State} (h : step s = .next t) (b : Nat) :
    t.ram.read b = s.ram.read b
      ∨ (b = (s.reg .a).toNat ∧ ¬ InMmio b
          ∧ ∃ w, s.fetch = some w ∧ w.getLsbD 15 = false ∧ w.extractLsb' 3 3 = 0b010) := by
  rcases step_cases h with ⟨-, rfl⟩ | ⟨w, imm, -, -, rfl⟩ | ⟨w, f, alu, hw, h15, htgt, rfl⟩
  · exact .inl rfl
  · exact .inl rfl
  · rw [compute_ram_read]
    split
    · next hstore =>
      obtain ⟨hstar, hb, hout⟩ := hstore
      have hw15 := bit15_of_encode_decodeWord h15
      rw [encode_decodeWord_tgt hw15, hstar] at htgt
      exact .inr ⟨hb, hout, w, hw, hw15, htgt⟩
    · exact .inl rfl

/-- Settles O31: a step stores only outside the device's range. -/
theorem shadowedCellsKeepTheirValue : Obligations.ShadowedCellsKeepTheirValue := by
  intro s t h a ha
  rcases step_ram_read_cases h a with hsame | ⟨-, hout, -⟩
  · exact hsame
  · exact absurd ha hout

/-- Settles O33: a cell that reads differently is one the step stored to. -/
theorem stepWritesAtMostTheCellAtA : Obligations.StepWritesAtMostTheCellAtA := by
  intro s t h a hne
  rcases step_ram_read_cases h a with hsame | ⟨ha, -, w, hw, hw15, htgt⟩
  · exact absurd hsame hne
  · exact ⟨ha, w, s.fetch_eq ▸ hw, hw15, htgt⟩

theorem memWrite_fetch (a v : Word) (s : State) : (memWrite a v s).fetch = s.fetch := by
  rw [State.fetch_eq, State.fetch_eq, memWrite_rom, memWrite_pc]

/-- Settles O34. ROM is no part of the space a store can reach, and no other part of a step writes it. -/
theorem storesNeverAffectFetch : Obligations.StoresNeverAffectFetch := by
  refine ⟨memWrite_fetch, fun s t h => ?_⟩
  rcases step_cases h with ⟨-, rfl⟩ | ⟨w, imm, -, -, rfl⟩ | ⟨w, f, alu, -, -, -, rfl⟩
  · rfl
  · rfl
  · exact compute_rom alu f s

-- The RAM cells under the UART -----------------------------------------------------------------------

section
variable {s t : State}

theorem State.agreesOffUart.reg (h : s.agreesOffUart t) (r : Reg) : s.reg r = t.reg r := by
  obtain ⟨hregs, -⟩ := h
  exact congrArg (Regs.get · r) hregs

/-- The same Word is fetched: it depends on ROM and PC alone. -/
theorem State.agreesOffUart.fetch (h : s.agreesOffUart t) : s.fetch = t.fetch := by
  obtain ⟨-, hpc, -, hrom, -⟩ := h
  rw [State.fetch_eq, State.fetch_eq, hrom, hpc]

theorem State.agreesOffUart.setReg (h : s.agreesOffUart t) (q : Reg) (v : Word) :
    (s.setReg q v).agreesOffUart (t.setReg q v) := by
  obtain ⟨hregs, hrest⟩ := h
  exact ⟨congrArg (Regs.set · q v) hregs, hrest⟩

theorem State.agreesOffUart.setPc (h : s.agreesOffUart t) (v : Word) :
    (s.setPc v).agreesOffUart (t.setPc v) := by
  obtain ⟨hregs, -, hrest⟩ := h
  exact ⟨hregs, rfl, hrest⟩

theorem State.agreesOffUart.withUart {u v : Uart} (h : s.agreesOffUart t) (huv : u = v) :
    ({ s with uart := u } : State).agreesOffUart { t with uart := v } := by
  obtain ⟨hregs, hpc, -, hrest⟩ := h
  exact ⟨hregs, hpc, huv, hrest⟩

theorem State.agreesOffUart.writeRam (h : s.agreesOffUart t) (a : Nat) (v : Word) :
    ({ s with ram := s.ram.write a v } : State).agreesOffUart { t with ram := t.ram.write a v } := by
  obtain ⟨hregs, hpc, huart, hrom, hparams, hram⟩ := h
  refine ⟨hregs, hpc, huart, hrom, hparams, fun b hb => ?_⟩
  rw [Memory.read_write, Memory.read_write, hram b hb]

/-- A read gives the same Word on both sides: that of the device, or that of a cell outside its range. -/
theorem State.agreesOffUart.memRead (h : s.agreesOffUart t) (a : Word) :
    (memRead a s).1 = (memRead a t).1 ∧ (memRead a s).2.agreesOffUart (memRead a t).2 := by
  have ⟨_, _, huart, _, hparams, hram⟩ := h
  cases hm : mmio a with
  | some r =>
    have hdev : s.uart.read s.params r = t.uart.read t.params r := by rw [huart, hparams]
    rw [memRead_of_mmio hm, memRead_of_mmio hm, hdev]
    exact ⟨rfl, h.withUart rfl⟩
  | none =>
    have hout := (mmio_eq_none_iff a).mp hm
    rw [memRead_of_not_inMmio hout, memRead_of_not_inMmio hout]
    exact ⟨hram a.toNat hout, h⟩

theorem State.agreesOffUart.memWrite (h : s.agreesOffUart t) (a v : Word) :
    (memWrite a v s).agreesOffUart (memWrite a v t) := by
  have ⟨_, _, huart, _, hparams, _⟩ := h
  cases hm : mmio a with
  | some r =>
    have hdev : s.uart.write s.params r v = t.uart.write t.params r v := by rw [huart, hparams]
    rw [memWrite_of_mmio hm, memWrite_of_mmio hm]
    exact h.withUart hdev
  | none =>
    have hout := (mmio_eq_none_iff a).mp hm
    rw [memWrite_of_not_inMmio hout, memWrite_of_not_inMmio hout]
    exact h.writeRam a.toNat v

theorem State.agreesOffUart.sourceValue (h : s.agreesOffUart t) (src : Operand) (a0 : Word) :
    (sourceValue src a0 s).1 = (sourceValue src a0 t).1
      ∧ (sourceValue src a0 s).2.agreesOffUart (sourceValue src a0 t).2 := by
  cases src with
  | none => exact ⟨rfl, h⟩
  | reg r => exact ⟨h.reg r, h⟩
  | starA => exact h.memRead a0

theorem State.agreesOffUart.writeTarget (h : s.agreesOffUart t) (tgt : Operand) (a0 r : Word) :
    (writeTarget tgt a0 r s).agreesOffUart (writeTarget tgt a0 r t) := by
  cases tgt with
  | none => exact h
  | reg q => exact h.setReg q r
  | starA => exact h.memWrite a0 r

theorem State.agreesOffUart.arbitrate (h : s.agreesOffUart t) (jmp : BitVec 3) (r : Word) :
    (arbitrate jmp r s).agreesOffUart (arbitrate jmp r t) := by
  have ⟨_, hpc, _⟩ := h
  rw [arbitrate_eq, arbitrate_eq, h.reg .a, hpc]
  exact h.setPc _

theorem State.agreesOffUart.aluInputs (h : s.agreesOffUart t) (f : Fields) :
    aluInputs f s = aluInputs f t := by
  obtain ⟨hvalue, -⟩ := h.sourceValue f.src (t.reg .a)
  simp only [Machine.aluInputs, h.reg .a, hvalue]

/-- A compute instruction sees the same inputs on both sides, so it has the same result and the same
effects, one after the other. -/
theorem State.agreesOffUart.compute (h : s.agreesOffUart t) (alu : Word → Word → Word)
    (f : Fields) : (compute alu f s).agreesOffUart (compute alu f t) := by
  obtain ⟨-, hsource⟩ := h.sourceValue f.src (t.reg .a)
  simp only [Machine.compute, h.reg .a, h.aluInputs f]
  exact (hsource.writeTarget f.tgt (t.reg .a) _).arbitrate f.jmp _

end

/-- What `exec_cases` says of one state, for all states at once: which of the three answers `exec`
gives, and with which ALU function, is decided by the instruction. -/
theorem exec_uniform_cases (i : Instr) :
    (∃ imm, ∀ s, exec i s = .next ((s.setReg .a imm).setPc (s.pc + 1)))
      ∨ (∃ f alu, ∀ s, exec i s = .next (compute alu f s))
      ∨ ∀ s, exec i s = .fault (.invalidOpcode s.pc (encode i)) := by
  cases i
  case ldi imm => exact .inl ⟨imm &&& 0x7FFF, fun _ => rfl⟩
  case reserved1101 f => exact .inr (.inr fun _ => rfl)
  case reserved1110 f => exact .inr (.inr fun _ => rfl)
  case reserved1111 f => exact .inr (.inr fun _ => rfl)
  all_goals
    next f => exact .inr (.inl ⟨f, _, fun _ => rfl⟩)

section
variable {s t : State}

theorem State.agreesOffUart.exec (h : s.agreesOffUart t) (i : Instr) :
    (∃ s' t', exec i s = .next s' ∧ exec i t = .next t' ∧ s'.agreesOffUart t')
      ∨ ∃ p, exec i s = .fault p ∧ exec i t = .fault p := by
  have ⟨_, hpc, _⟩ := h
  rcases exec_uniform_cases i with ⟨imm, e⟩ | ⟨f, alu, e⟩ | e
  · exact .inl ⟨_, _, e s, e t, hpc ▸ (h.setReg .a imm).setPc _⟩
  · exact .inl ⟨_, _, e s, e t, h.compute alu f⟩
  · exact .inr ⟨_, e s, hpc ▸ e t⟩

/-- Two states that agree step to states that agree, or stop with the same fault (R35). -/
theorem State.agreesOffUart.step (h : s.agreesOffUart t) :
    (∃ s' t', step s = .next s' ∧ step t = .next t' ∧ s'.agreesOffUart t')
      ∨ ∃ p, step s = .fault p ∧ step t = .fault p := by
  cases ht : t.fetch with
  | none => exact .inl ⟨s, t, step_of_fetch_none (h.fetch.trans ht), step_of_fetch_none ht, h⟩
  | some w =>
    rw [step_of_fetch (h.fetch.trans ht), step_of_fetch ht]
    exact h.exec (decodeWord w)

end

/-- Settles O32, by induction on the number of steps, for all pairs of states that agree at once. -/
theorem shadowedCellsAreInvisible : Obligations.ShadowedCellsAreInvisible := by
  intro k
  induction k with
  | zero => exact fun s t h => h
  | succ k ih =>
    intro s t h
    rcases h.step with ⟨s', t', hs, ht, h'⟩ | ⟨p, hs, ht⟩
    · rw [run_succ_of_next k hs, run_succ_of_next k ht]
      exact ih s' t' h'
    · rw [run_succ_of_fault k hs, run_succ_of_fault k ht]
      exact rfl

-- The UART's FIFOs as memory -------------------------------------------------------------------------

/-- A write to `U_OUT` with room in the FIFO appends the low byte (R129). -/
theorem memWrite_uOut_of_lt {s : State} (v : Word) (h : s.uart.outq.length < 256) :
    memWrite 0x6001 v s =
      { s with uart := { s.uart with outq := s.uart.outq ++ [v.extractLsb' 0 8] } } := by
  have hlow : v.extractLsb' 0 8 = v.setWidth 8 := rfl
  rw [memWrite_of_mmio (r := .uOut) rfl, hlow]
  simp only [Uart.write, Uart.enqueueOut, if_pos h]

theorem writeUOut_of_fits (vs : List Word) {s : State} (h : s.uart.outq.length + vs.length ≤ 256) :
    writeUOut vs s =
      { s with uart := { s.uart with
          outq := s.uart.outq ++ vs.map (fun v => v.extractLsb' 0 8) } } := by
  induction vs generalizing s with
  | nil => rw [List.map_nil, List.append_nil]; rfl
  | cons v vs ih =>
    rw [List.length_cons] at h
    have hroom : s.uart.outq.length < 256 := by omega
    rw [writeUOut, memWrite_uOut_of_lt v hroom,
      ih (by simp only [List.length_append, List.length_singleton]; omega)]
    simp only [List.append_assoc, List.singleton_append, List.map_cons]

/-- Settles O45: the writes append, and `drain_out` takes what stands there. -/
theorem drainOutReturnsWrittenBytesInOrder : Obligations.DrainOutReturnsWrittenBytesInOrder := by
  intro vs s h
  rw [writeUOut_of_fits vs h]
  rfl

/-- A read of `U_IN` takes the head of the FIFO (R130). -/
theorem memRead_uIn_of_cons {s : State} {b : Byte} {rest : List Byte} (h : s.uart.inq = b :: rest) :
    memRead 0x6002 s =
      (BitVec.ofNat 16 b.toNat, { s with uart := { s.uart with inq := rest } }) := by
  rw [memRead_of_mmio (r := .uIn) rfl, BitVec.ofNat_toNat]
  simp only [Uart.read, h]

theorem readUIn_length {bytes : List Byte} {s : State} (h : s.uart.inq = bytes) :
    readUIn bytes.length s =
      (bytes.map (fun b => BitVec.ofNat 16 b.toNat),
        { s with uart := { s.uart with inq := [] } }) := by
  induction bytes generalizing s with
  | nil =>
    have hs : s = { s with uart := { s.uart with inq := [] } } := by rw [← h]
    exact congrArg (Prod.mk []) hs
  | cons b rest ih =>
    rw [List.length_cons, readUIn, memRead_uIn_of_cons h, ih rfl]
    rfl

/-- Bytes that fit are appended, and none is dropped (R138). -/
theorem Uart.foldl_push_of_fits (bytes : List Byte) {u : Uart}
    (h : u.inq.length + bytes.length ≤ 256) :
    bytes.foldl Uart.push u = { u with inq := u.inq ++ bytes } := by
  induction bytes generalizing u with
  | nil => rw [List.append_nil]; rfl
  | cons b bytes ih =>
    rw [List.length_cons] at h
    have hroom : u.inq.length < 256 := by omega
    rw [List.foldl_cons, Uart.push_of_lt hroom,
      ih (by simp only [List.length_append, List.length_singleton]; omega)]
    simp only [List.append_assoc, List.singleton_append]

/-- Settles O46: `feed_in` appends, and each read takes the head. -/
theorem uInReturnsFedBytesInOrder : Obligations.UInReturnsFedBytesInOrder := by
  intro bytes s h
  rw [feedIn, Uart.foldl_push_of_fits bytes h, ← List.length_append]
  exact readUIn_length rfl

-- Placing a word -------------------------------------------------------------------------------------

theorem tableWord_toNat (w : Word) : tableWord 16 w.toNat = w := by
  rw [tableWord, Nat.mod_eq_of_lt w.isLt, BitVec.ofNat_toNat, BitVec.setWidth_eq]

theorem withFetchWord_fetch (s : State) (w : Word) :
    (s.withFetchWord 16 w.toNat).fetch = some w := by
  rw [State.fetch_eq, State.withFetchWord, tableWord_toNat]
  exact placeWord_getElem? s.rom s.pc.toNat w

/-- Settles O57: the placed word is what the next step fetches. -/
theorem placedWordIsRunNext : Obligations.PlacedWordIsRunNext := by
  intro s w
  exact ⟨step_of_fetch (withFetchWord_fetch s w), rfl⟩

end Sys2Proof.Machine

/-! PROOFS. Encoding: decoder and encoder invert each other, no step is refused, the words that only advance
the PC, and the assembler's operands and constants. -/

namespace Sys2Proof.Machine

-- The decoder after the encoder ----------------------------------------------------------------------

theorem decodeWord_of_bit15_eq_false {w : Word} (h : w.getLsbD 15 = false) :
    decodeWord w = instrOfOp (w.extractLsb' 8 4) (decodeFields w) := by
  rw [decodeWord, if_neg (Bool.eq_false_iff.mp h)]

/-- Each field stands in the encoded word where the decoder looks for it (R52, R53). -/
theorem decodeFields_encodeFormatC (op : BitVec 4) (f : Fields) :
    decodeFields (encodeFormatC op f) = f := by
  simp [decodeFields, BitVec.getLsbD_eq_getElem]

theorem decodeWord_encodeFormatC (op : BitVec 4) (f : Fields) :
    decodeWord (encodeFormatC op f) = instrOfOp op f := by
  rw [decodeWord_of_bit15_eq_false (encodeFormatC_bit15 op f), encodeFormatC_op,
    decodeFields_encodeFormatC]

theorem and_imm15_toNat (w : Word) : (w &&& 0x7FFF).toNat = w.toNat % 2 ^ 15 := by
  rw [BitVec.toNat_and]
  exact Nat.and_two_pow_sub_one_eq_mod w.toNat 15

theorem encodeFormatI_and_imm15 (imm : Word) : encodeFormatI imm &&& 0x7FFF = imm &&& 0x7FFF := by
  rw [encodeFormatI]
  ext k hk
  interval_cases k <;> simp

/-- An immediate that fits in 15 bits is given back (R51, R58). -/
theorem decodeWord_encodeFormatI {imm : Word} (h : imm.toNat ≤ 0x7FFF) :
    decodeWord (encodeFormatI imm) = .ldi imm := by
  have himm : imm &&& 0x7FFF = imm := by
    rw [← BitVec.toNat_inj, and_imm15_toNat]
    exact Nat.mod_eq_of_lt (Nat.lt_succ_of_le h)
  rw [decodeWord_of_bit15 (encodeFormatI_bit15 imm), encodeFormatI_and_imm15, himm]

/-- Settles O1: format I by its immediate; each of the sixteen format C instructions is the one that
`instrOfOp` gives for its operation code. -/
theorem decodeInvertsEncode : Obligations.DecodeInvertsEncode := by
  intro i hi
  cases i
  case ldi imm => exact decodeWord_encodeFormatI (of_decide_eq_true hi)
  all_goals
    next f => exact decodeWord_encodeFormatC _ f

-- The encoder after the decoder ----------------------------------------------------------------------

/-- The fields cover bits 14 to 0, and bit 15 is clear. -/
theorem encodeFormatC_decodeFields {w : Word} (h : w.getLsbD 15 = false) :
    encodeFormatC (w.extractLsb' 8 4) (decodeFields w) = w := by
  simp only [encodeFormatC, decodeFields, operandCode_operandOfCode]
  ext k hk
  interval_cases k <;> simp_all [BitVec.getLsbD_eq_getElem]

theorem encodeFormatI_and_of_bit15 {w : Word} (h : w.getLsbD 15 = true) :
    encodeFormatI (w &&& 0x7FFF) = w := by
  rw [encodeFormatI]
  ext k hk
  interval_cases k <;> simp_all [BitVec.getLsbD_eq_getElem]

/-- Settles O2, by the two formats. -/
theorem encodeInvertsDecode : Obligations.EncodeInvertsDecode := by
  intro w
  cases h : w.getLsbD 15 with
  | true =>
    rw [decodeWord_of_bit15 h]
    refine ⟨encodeFormatI_and_of_bit15 h, fun _ => ⟨_, rfl, ?_⟩, nofun⟩
    rw [and_imm15_toNat, BitVec.extractLsb'_toNat, Nat.shiftRight_zero]
  | false =>
    rw [decodeWord_of_bit15_eq_false h]
    refine ⟨(encode_instrOfOp _ _).trans (encodeFormatC_decodeFields h), nofun, fun _ => ?_⟩
    exact ⟨decodeFields w, rfl, operandCode_operandOfCode _, rfl, rfl,
      operandCode_operandOfCode _, rfl⟩

/-- Settles O3, by evaluating the decoder on the seven words. -/
theorem writtenWordsDecode : Obligations.WrittenWordsDecode := by
  unfold Obligations.WrittenWordsDecode
  decide

-- The step -------------------------------------------------------------------------------------------

/-- Settles O7: a halted step answers a next state, and none of the answers of `exec` is a refusal
(`exec_cases`). -/
theorem stepNeverRefuses : Obligations.StepNeverRefuses := by
  intro s p
  cases hfetch : s.fetch with
  | none =>
    rw [step_of_fetch_none hfetch]
    nofun
  | some w =>
    rw [step_of_fetch hfetch]
    rcases exec_cases (decodeWord w) s with ⟨imm, -, e⟩ | ⟨f, alu, -, -, e⟩ | e <;> rw [e] <;> nofun

/-- The thirteen compute instructions share `compute` (R75): they differ in the ALU function alone. -/
theorem exec_of_mem_computeOps {p : (Fields → Instr) × (Word → Word → Word)} (hp : p ∈ computeOps) :
    ∃ alu, ∀ f s, exec (p.1 f) s = .next (compute alu f s) := by
  simp only [computeOps, List.mem_cons, List.not_mem_nil, or_false] at hp
  rcases hp with rfl | rfl | rfl | rfl | rfl | rfl | rfl | rfl | rfl | rfl | rfl | rfl | rfl <;>
    exact ⟨_, fun _ _ => rfl⟩

/-- The mask `000` never jumps (R110, R113). -/
theorem taken_zero (c : SignClass) : taken 0b000 c = false := by
  cases c <;> rfl

theorem sourceValue_snd_of_ne_starA {src : Operand} (h : src ≠ .starA) (a0 : Word) (s : State) :
    (sourceValue src a0 s).2 = s := by
  rw [sourceValue_snd, if_neg h]

/-- Settles O24: the source read, the target write and the jump each do nothing, whatever the result
is. -/
theorem noTargetNoJumpOnlyAdvancesPc : Obligations.NoTargetNoJumpOnlyAdvancesPc := by
  intro p hp f s htgt hjmp hsrc
  obtain ⟨alu, hexec⟩ := exec_of_mem_computeOps hp
  rw [hexec, compute_eq]
  simp only [htgt, hjmp, writeTarget, taken_zero, sourceValue_snd_of_ne_starA hsrc]
  rfl

-- The assembler's constants --------------------------------------------------------------------------

/-- Settles O52: the one mapping covers the cell, so reset leaves there the ROM Word at the same distance
from the start of the constants (`resetRamHoldsTheLastMapping`). -/
theorem constsAreInRamAfterReset : Obligations.ConstsAreInRamAfterReset := by
  intro p text consts addr s hreset i v hv
  obtain ⟨hfits, -, -⟩ := (hostReset_ok_iff _ _ _ _).mp hreset
  have hlen : (text ++ consts).length ≤ 65535 := of_decide_eq_true hfits
  rw [List.length_append] at hlen
  have hi : i < consts.length := (List.getElem?_eq_some_iff.mp hv).1
  have htext : (BitVec.ofNat 16 text.length).toNat = text.length :=
    Nat.mod_eq_of_lt (by omega)
  have hconsts : (BitVec.ofNat 16 consts.length).toNat = consts.length :=
    Nat.mod_eq_of_lt (by omega)
  obtain ⟨-, hcopied⟩ := resetRamHoldsTheLastMapping p _ _ s hreset
  have hread := hcopied [] _ [] (addr.toNat + i) rfl ⟨by simp, by simp only [hconsts]; omega⟩ nofun
  simp only [imageWithConsts, htext, Nat.add_sub_cancel_left,
    List.getElem?_append_right (Nat.le_add_right _ i), hv] at hread
  exact (Option.some.inj hread).symm

-- The assembler's operands ---------------------------------------------------------------------------

section
variable {p q : Written} {o : Operand} (tgt : Operand) (jmp : BitVec 3)

/-- Every written operand is the literal `0`, `A`, or a source name (R64). -/
theorem written_cases (p : Written) :
    p = .zero ∨ p = .regA ∨ ∃ o, writtenSource p = some o := by
  cases p
  case zero => exact .inl rfl
  case regA => exact .inr (.inl rfl)
  all_goals exact .inr (.inr ⟨_, rfl⟩)

theorem writtenSource_isSome_iff (p : Written) :
    (writtenSource p).isSome = true ↔ p ≠ .zero ∧ p ≠ .regA := by
  cases p <;> decide

/-- The source of a written source name has the value the name stands for (R64, R77). -/
theorem sourceValue_writtenSource (h : writtenSource p = some o) (s : State) :
    (sourceValue o (s.reg .a) s).1 = writtenValue p s := by
  cases p <;> cases h <;> rfl

/-- The row `op, S, A` of R64. -/
theorem binaryFields_source_regA (h : writtenSource p = some o) :
    binaryFields p .regA tgt jmp = some ⟨o, false, false, tgt, jmp⟩ := by
  cases p <;> cases h <;> rfl

/-- The row `op, A, S` of R64. -/
theorem binaryFields_regA_source (h : writtenSource q = some o) :
    binaryFields .regA q tgt jmp = some ⟨o, true, false, tgt, jmp⟩ := by
  cases q <;> cases h <;> rfl

/-- The row `op, S` of a unary operation in R64. -/
theorem unaryFields_source (h : writtenSource p = some o) :
    unaryFields p tgt jmp = ⟨o, false, false, tgt, jmp⟩ := by
  simp only [unaryFields, h]

/-- Without `A` among the operands there are no fields (R64). -/
theorem binaryFields_eq_none (hp : p ≠ .regA) (hq : q ≠ .regA) :
    binaryFields p q tgt jmp = none := by
  unfold binaryFields
  split <;> trivial

end

/-- The fields `f` denote `tgt = op, P, Q ; jmp`: `P` and `Q` are the ALU's inputs in that order, and target and
mask are the written ones (R64). -/
def DenotesPair (p q : Written) (tgt : Operand) (jmp : BitVec 3) (f : Fields) : Prop :=
  (∀ s, aluInputs f s = (writtenValue p s, writtenValue q s)) ∧ f.tgt = tgt ∧ f.jmp = jmp

section
variable (p q : Written) (tgt : Operand) (jmp : BitVec 3)

theorem exists_binaryFields_regA_right :
    ∃ f, binaryFields p .regA tgt jmp = some f ∧ DenotesPair p .regA tgt jmp f := by
  rcases written_cases p with rfl | rfl | ⟨o, ho⟩
  · exact ⟨_, rfl, fun _ => rfl, rfl, rfl⟩
  · exact ⟨_, rfl, fun _ => rfl, rfl, rfl⟩
  · exact ⟨_, binaryFields_source_regA tgt jmp ho,
      fun s => congrArg (·, s.reg .a) (sourceValue_writtenSource ho s), rfl, rfl⟩

theorem exists_binaryFields_regA_left :
    ∃ f, binaryFields .regA q tgt jmp = some f ∧ DenotesPair .regA q tgt jmp f := by
  rcases written_cases q with rfl | rfl | ⟨o, ho⟩
  · exact ⟨_, rfl, fun _ => rfl, rfl, rfl⟩
  · exact ⟨_, rfl, fun _ => rfl, rfl, rfl⟩
  · exact ⟨_, binaryFields_regA_source tgt jmp ho,
      fun s => congrArg (s.reg .a, ·) (sourceValue_writtenSource ho s), rfl, rfl⟩

/-- A pair of which one operand is `A` has fields that denote it. -/
theorem exists_binaryFields {p q : Written} (h : p = .regA ∨ q = .regA) :
    ∃ f, binaryFields p q tgt jmp = some f ∧ DenotesPair p q tgt jmp f := by
  rcases h with rfl | rfl
  · exact exists_binaryFields_regA_left q tgt jmp
  · exact exists_binaryFields_regA_right p tgt jmp

theorem binaryFields_isSome_iff :
    (binaryFields p q tgt jmp).isSome = true ↔ p = .regA ∨ q = .regA := by
  constructor
  · intro h
    by_contra hne
    obtain ⟨hp, hq⟩ := not_or.mp hne
    rw [binaryFields_eq_none tgt jmp hp hq] at h
    cases h
  · intro h
    obtain ⟨f, hf, -⟩ := exists_binaryFields tgt jmp h
    rw [hf, Option.isSome_some]

theorem denotesPair_of_binaryFields {f : Fields} (h : binaryFields p q tgt jmp = some f) :
    DenotesPair p q tgt jmp f := by
  have hpq := (binaryFields_isSome_iff p q tgt jmp).mp (h ▸ Option.isSome_some)
  obtain ⟨g, hg, hden⟩ := exists_binaryFields tgt jmp hpq
  exact Option.some.inj (hg.symm.trans h) ▸ hden

/-- The unary rows of R64: for every `P` the input `X` is `P`. -/
theorem aluInputs_unaryFields (s : State) :
    (aluInputs (unaryFields p tgt jmp) s).1 = writtenValue p s := by
  rcases written_cases p with rfl | rfl | ⟨o, ho⟩
  · rfl
  · rfl
  · rw [unaryFields_source tgt jmp ho]
    exact sourceValue_writtenSource ho s

theorem unaryFields_tgt_jmp :
    (unaryFields p tgt jmp).tgt = tgt ∧ (unaryFields p tgt jmp).jmp = jmp := by
  unfold unaryFields
  split <;> exact ⟨rfl, rfl⟩

end

/-- Settles O28, row by row of the table. -/
theorem writtenOperandsReachTheAlu : Obligations.WrittenOperandsReachTheAlu := by
  intro p q tgt jmp s
  refine ⟨binaryFields_isSome_iff p q tgt jmp, fun f hf => ?_, writtenSource_isSome_iff p,
    fun o ho => ⟨binaryFields_source_regA tgt jmp ho, binaryFields_regA_source tgt jmp ho,
      unaryFields_source tgt jmp ho⟩,
    rfl, rfl, rfl, rfl, rfl, aluInputs_unaryFields p tgt jmp s, unaryFields_tgt_jmp p tgt jmp⟩
  obtain ⟨hinputs, htgt, hjmp⟩ := denotesPair_of_binaryFields p q tgt jmp hf
  exact ⟨hinputs s, htgt, hjmp⟩

end Sys2Proof.Machine

/-! PROOFS. The immediate load: its word, and its effect as one equation of states. -/

namespace Sys2Proof.Machine

/-- A constant that fits in 15 bits keeps all its bits in the word (R58). -/
theorem and_imm15_of_le {imm : Word} (h : imm.toNat ≤ 0x7FFF) : imm &&& 0x7FFF = imm := by
  rw [← BitVec.toNat_inj, and_imm15_toNat]
  exact Nat.mod_eq_of_lt (Nat.lt_succ_of_le h)

theorem and_imm15_idem (w : Word) : w &&& 0x7FFF &&& 0x7FFF = w &&& 0x7FFF := by
  rw [BitVec.and_assoc, BitVec.and_self]

theorem encode_ldi_of_le {imm : Word} (h : imm.toNat ≤ 0x7FFF) :
    encode (.ldi imm) = 0x8000 ||| imm :=
  congrArg (0x8000 ||| ·) (and_imm15_of_le h)

/-- The load from an immediate without bit 15 writes `A` and the PC, and no other field (R70). -/
theorem exec_ldi_of_and_imm15 {imm : Word} (h : imm &&& 0x7FFF = imm) (s : State) :
    exec (.ldi imm) s = .next { s with regs := { s.regs with a := imm }, pc := s.pc + 1 } := by
  have hexec : exec (.ldi imm) s = .next ((s.setReg .a (imm &&& 0x7FFF)).setPc (s.pc + 1)) := rfl
  rw [hexec, h]
  rfl

/-- Settles O11: the immediate, given or decoded, has bit 15 clear, so the load takes it whole. -/
theorem ldiLoadsConstantIntoA : Obligations.LdiLoadsConstantIntoA := by
  constructor
  · intro imm s himm
    exact ⟨encode_ldi_of_le himm, exec_ldi_of_and_imm15 (and_imm15_of_le himm) s⟩
  · intro w s hbit15
    rw [decodeWord_of_bit15 hbit15]
    exact exec_ldi_of_and_imm15 (and_imm15_idem w) s

end Sys2Proof.Machine

/-! PROOFS. Compute instructions: the operands, the ALU functions as the rules write them, the jump after the
target write, and source `*A` together with target `*A`. -/

namespace Sys2Proof.Machine

-- The operands ---------------------------------------------------------------------------------------

/-- Settles O17: the source codes are those of R53, in order, and only code `010` makes an access. -/
theorem sourceValueByCode : Obligations.SourceValueByCode := by
  intro a0 s
  exact ⟨rfl, rfl, rfl, rfl, rfl, rfl, rfl, rfl⟩

/-- Settles O18: the four choices of `zx` and `sw`, each by the definition of `normalise`. -/
theorem normalisationTable : Obligations.NormalisationTable := by
  intro v a0
  exact ⟨rfl, rfl, rfl, rfl⟩

-- The decoded instruction ----------------------------------------------------------------------------

/-- Only the immediate load can be ill-formed (R56, R58). -/
theorem wellFormed_instrOfOp (op : BitVec 4) (f : Fields) : (instrOfOp op f).wellFormed = true := by
  obtain ⟨n, hn⟩ := op
  interval_cases n <;> rfl

/-- The decoder gives only well-formed instructions: an immediate comes from 15 bits (R51). -/
theorem wellFormed_decodeWord (w : Word) : (decodeWord w).wellFormed = true := by
  cases h : w.getLsbD 15 with
  | true =>
    have hlt : (w &&& 0x7FFF).toNat < 2 ^ 15 := and_imm15_toNat w ▸ Nat.mod_lt _ (by decide)
    rw [decodeWord_of_bit15 h]
    exact decide_eq_true (Nat.le_of_lt_succ hlt)
  | false =>
    rw [decodeWord_of_bit15_eq_false h]
    exact wellFormed_instrOfOp _ _

/-- Settles O4: the ROM Word at the PC is what is fetched. -/
theorem stepRunsDecodedInstruction : Obligations.StepRunsDecodedInstruction := by
  intro s w hw
  exact ⟨wellFormed_decodeWord w, step_of_fetch (s.fetch_eq.trans hw)⟩

-- The ALU functions ----------------------------------------------------------------------------------

section
variable (x y : Word)

theorem shiftLeft_one_eq_ofNat : x <<< 1 = BitVec.ofNat 16 (2 * x.toNat) := by
  bv_omega

theorem ushiftRight_one_eq_ofNat : x >>> 1 = BitVec.ofNat 16 (x.toNat / 2) := by
  bv_omega

theorem complement_eq_xor : ~~~x = 0xFFFF ^^^ x :=
  BitVec.allOnes_xor.symm

theorem rotateLeft_one_eq : x.rotateLeft 1 = x <<< 1 ||| x >>> 15 :=
  rfl

theorem rotateRight_one_eq : x.rotateRight 1 = x >>> 1 ||| (x &&& 1) <<< 15 := by
  ext i hi
  interval_cases i <;> simp

theorem sshiftRight_one_eq : x.sshiftRight 1 = x >>> 1 ||| x &&& 0x8000 := by
  ext i hi
  interval_cases i <;> simp [BitVec.getElem_sshiftRight, BitVec.msb_eq_getLsbD_last]

theorem add_eq_ofNat : x + y = BitVec.ofNat 16 (x.toNat + y.toNat) := by
  bv_omega

theorem sub_eq_ofInt : x - y = BitVec.ofInt 16 ((x.toNat : Int) - (y.toNat : Int)) := by
  apply BitVec.eq_of_toNat_eq
  rw [BitVec.toNat_ofInt, BitVec.toNat_sub]
  omega

theorem sub_one_eq_ofInt : x - 1 = BitVec.ofInt 16 ((x.toNat : Int) - 1) :=
  sub_eq_ofInt x 1

end

/-- An outcome of `compute` depends on the values of the ALU function alone. -/
theorem next_compute_congr {alu alu' : Word → Word → Word} (h : ∀ x y, alu x y = alu' x y)
    (f : Fields) (s : State) : (.next (compute alu f s) : Result) = .next (compute alu' f s) := by
  rw [funext₂ h]

/-- Each compute instruction is `compute` of the ALU function that the rules R91 to R103 give it. The cases
stand in the order of the operation codes. -/
theorem exec_eq_compute {p : (Fields → Instr) × (Word → Word → Word)} (hp : p ∈ computeOps)
    (f : Fields) (s : State) : exec (p.1 f) s = .next (compute p.2 f s) := by
  simp only [computeOps, List.mem_cons, List.not_mem_nil, or_false] at hp
  rcases hp with rfl | rfl | rfl | rfl | rfl | rfl | rfl | rfl | rfl | rfl | rfl | rfl | rfl <;>
    refine next_compute_congr (fun x y => ?_) f s
  · rfl
  · rfl
  · rfl
  · exact complement_eq_xor x
  · exact shiftLeft_one_eq_ofNat x
  · exact ushiftRight_one_eq_ofNat x
  · exact rotateLeft_one_eq x
  · exact rotateRight_one_eq x
  · exact add_eq_ofNat x y
  · exact sub_eq_ofInt x y
  · exact add_eq_ofNat x 1
  · exact sub_one_eq_ofInt x
  · exact sshiftRight_one_eq x

-- The jump -------------------------------------------------------------------------------------------

theorem taken_iff (jmp : BitVec 3) (c : SignClass) : taken jmp c = true ↔ jmp &&& c.mask ≠ 0 :=
  decide_eq_true_iff

section
variable (alu : Word → Word → Word) (f : Fields) (s : State)

/-- A compute instruction writes its result to its target register and no other (R83). -/
theorem compute_reg (q : Reg) :
    (compute alu f s).reg q =
      if f.tgt = .reg q then alu (aluInputs f s).1 (aluInputs f s).2 else s.reg q := by
  simp only [compute_eq, State.reg_setPc, writeTarget_reg, sourceValue_reg]

/-- A taken jump goes to the `A` of after the target write (R86, R111). -/
theorem compute_pc_of_taken
    (h : taken f.jmp (signClass (alu (aluInputs f s).1 (aluInputs f s).2)) = true) :
    (compute alu f s).pc = (compute alu f s).reg .a := by
  simp only [compute_eq, h, if_true, State.setPc_pc, State.reg_setPc]

end

/-- Settles O20: the mask meets the class of the result, so the jump is taken. -/
theorem takenJumpGoesToPostWriteA : Obligations.TakenJumpGoesToPostWriteA := by
  rintro p hp f s r rfl hmask
  have htaken := (taken_iff f.jmp _).mpr hmask
  exact ⟨_, exec_eq_compute hp f s, compute_pc_of_taken p.2 f s htaken, compute_reg p.2 f s .a⟩

-- Source `*A` with target `*A` -----------------------------------------------------------------------

/-- With `*A` as source and target a compute instruction reads at the address in `A`, then writes there, and
a taken jump goes to the old `A`, which the write leaves (R87). -/
theorem compute_of_starA_starA (alu : Word → Word → Word) {f : Fields} (hsrc : f.src = .starA)
    (htgt : f.tgt = .starA) (s : State) {r : Word}
    (hr : r = alu (aluInputs f s).1 (aluInputs f s).2) :
    compute alu f s =
      (memWrite (s.reg .a) r (memRead (s.reg .a) s).2).setPc
        (if taken f.jmp (signClass r) then s.reg .a else s.pc + 1) := by
  simp only [compute_eq, ← hr, hsrc, htgt, sourceValue, writeTarget, memWrite_reg, memRead_reg,
    memWrite_pc, memRead_pc]

section
variable {a : Word} {u : UartReg} (r : Word) (s : State)

/-- A device access leaves the RAM cell under the device alone (R35). -/
theorem memWrite_ram_of_inMmio (h : InMmio a.toNat) : (memWrite a r s).ram = s.ram := by
  rcases memWrite_cases a r s with ⟨_, _, e⟩ | ⟨hnone, _⟩
  · rw [e]
  · exact absurd h ((mmio_eq_none_iff a).mp hnone)

/-- Outside the device's range a read and a write do not reach the UART. -/
theorem memWrite_memRead_uart_of_not_inMmio (h : ¬ InMmio a.toNat) :
    (memWrite a r (memRead a s).2).uart = s.uart := by
  rw [memRead_of_not_inMmio h, memWrite_of_not_inMmio h]

/-- At a device a read and a write are the device's own, one after the other. -/
theorem memWrite_memRead_uart_of_mmio (h : mmio a = some u) :
    (memWrite a r (memRead a s).2).uart =
      ((s.uart.read s.params u).2).write s.params u r := by
  rw [memRead_of_mmio h, memWrite_of_mmio h]

theorem memRead_fst_of_mmio (h : mmio a = some u) :
    (memRead a s).1 = (s.uart.read s.params u).1 := by
  rw [memRead_of_mmio h]

end

/-- `U_IN` reads as the head of `uart.in`, zero when it is empty (R130). -/
theorem Uart.read_uIn_fst (p : Params) (u : Uart) :
    (u.read p .uIn).1 = BitVec.ofNat 16 (u.inq.headD 0).toNat := by
  obtain ⟨inq, outq, baud, io, ctl⟩ := u
  cases inq with
  | nil => rfl
  | cons b rest => exact (BitVec.ofNat_toNat 16 b).symm

/-- Settles O23: the step is one read and one write at the address in `A` (`compute_of_starA_starA`), of RAM
or of the device that stands there. -/
theorem starASourceAndTargetReadBeforeWrite : Obligations.StarASourceAndTargetReadBeforeWrite := by
  intro p hp f s v x y r hsrc htgt hv hxy hr
  have hinputs : aluInputs f s = (x, y) := by
    rw [← hxy, hv, aluInputs, hsrc, sourceValue]
  have hcompute := compute_of_starA_starA p.2 hsrc htgt s (r := r) (by rw [hinputs, hr])
  have hdevice : ∀ {u : UartReg}, mmio (s.reg .a) = some u →
      v = (s.uart.read s.params u).1
        ∧ (memWrite (s.reg .a) r (memRead (s.reg .a) s).2).uart =
            ((s.uart.read s.params u).2).write s.params u r :=
    fun hm => ⟨hv.trans (memRead_fst_of_mmio s hm), memWrite_memRead_uart_of_mmio r s hm⟩
  refine ⟨_, (exec_eq_compute hp f s).trans (congrArg _ hcompute), ?regs, rfl, ?plain, ?shadowed,
    ?baud, ?out, ?inp, ?status, ?control⟩
  case regs => rw [State.setPc_regs, memWrite_regs, memRead_regs]
  case plain =>
    intro hout
    refine ⟨by rw [hv, memRead_of_not_inMmio hout], memWrite_memRead_uart_of_not_inMmio r s hout,
      fun b => ?_⟩
    rw [State.setPc_ram, memRead_of_not_inMmio hout, memWrite_of_not_inMmio hout, Memory.read_write]
  case shadowed =>
    intro hin
    rw [State.setPc_ram, memWrite_ram_of_inMmio r _ hin, memRead_ram]
  case baud => exact fun ha => hdevice (u := .uBaud) (congrArg mmio ha)
  case out => exact fun ha => hdevice (u := .uOut) (congrArg mmio ha)
  case inp =>
    intro ha
    have ⟨hvalue, huart⟩ := hdevice ((mmio_eq_uIn_iff _).mpr ha)
    rw [Uart.read_uIn_fst] at hvalue
    rw [Uart.read_snd, if_pos rfl] at huart
    exact ⟨hvalue, huart⟩
  case status => exact fun ha => hdevice (u := .uIfl) (congrArg mmio ha)
  case control => exact fun ha => hdevice (u := .uOfl) (congrArg mmio ha)

end Sys2Proof.Machine

/-! PROOFS. ALU operations: the whole effect of a compute instruction, the results of the operations with their
word patterns, and the reserved operation codes. -/

namespace Sys2Proof.Machine

-- The whole effect of a compute instruction ----------------------------------------------------------

section
variable (alu : Word → Word → Word) (f : Fields) (s : State)

theorem compute_params : (compute alu f s).params = s.params := by
  simp only [compute_eq, State.setPc_params, writeTarget_params, sourceValue_params]

/-- The PC update, with the `A` of after the step as the goal of the jump (R111, R112). -/
theorem compute_pc_eq :
    (compute alu f s).pc =
      if taken f.jmp (signClass (alu (aluInputs f s).1 (aluInputs f s).2))
      then (compute alu f s).reg .a else s.pc + 1 := by
  simp only [compute_eq, State.setPc_pc, State.reg_setPc, writeTarget_pc, sourceValue_pc]

/-- The UART sees the source read, then the target write, and nothing of the PC update (R75). -/
theorem compute_uart :
    (compute alu f s).uart = uartAfter f (alu (aluInputs f s).1 (aluInputs f s).2) s := by
  simp only [compute_eq, State.setPc_uart, writeTarget_uart, sourceValue_snd, uartAfter]

/-- Whatever the ALU function is, a compute instruction has the effect of its result and no other. -/
theorem computeEffect_compute :
    ComputeEffect f (alu (aluInputs f s).1 (aluInputs f s).2) s (compute alu f s) where
  regs := compute_reg alu f s
  pc := compute_pc_eq alu f s
  ram := compute_ram_read alu f s
  uart := compute_uart alu f s
  rom := compute_rom alu f s
  params := compute_params alu f s

end

/-- The instruction at the index `op` of `computeOps`, where `op` is its operation code (R54), completes with
the effect of the result that its rule gives on the ALU's inputs. -/
theorem exec_computeEffect (op : Nat) {instr : Fields → Instr} {alu : Word → Word → Word}
    (hop : computeOps[op]? = some (instr, alu)) {f : Fields} {s : State} {x y : Word}
    (hxy : aluInputs f s = (x, y)) :
    ∃ t, exec (instr f) s = .next t ∧ ComputeEffect f (alu x y) s t := by
  refine ⟨_, exec_eq_compute (List.mem_of_getElem? hop) f s, ?_⟩
  have heffect := computeEffect_compute alu f s
  rwa [hxy] at heffect

-- The operations -------------------------------------------------------------------------------------

/-- Settles O12: the operation codes 0 to 3. -/
theorem bitwiseOperationsCompute : Obligations.BitwiseOperationsCompute := by
  intro f s x y hxy
  exact ⟨⟨Laws.TableRow.and f, exec_computeEffect 0 rfl hxy⟩,
    ⟨Laws.TableRow.or f, exec_computeEffect 1 rfl hxy⟩,
    ⟨Laws.TableRow.xor f, exec_computeEffect 2 rfl hxy⟩,
    ⟨Laws.TableRow.not f, exec_computeEffect 3 rfl hxy⟩⟩

/-- Settles O13: the operation codes 4 and 5. -/
theorem logicalShiftsCompute : Obligations.LogicalShiftsCompute := by
  intro f s x y hxy
  exact ⟨⟨Laws.TableRow.lsl f, exec_computeEffect 4 rfl hxy⟩,
    ⟨Laws.TableRow.lsr f, exec_computeEffect 5 rfl hxy⟩⟩

/-- Settles O15: the operation codes 8 and 9. -/
theorem addAndSubCompute : Obligations.AddAndSubCompute := by
  intro f s x y hxy
  exact ⟨⟨Laws.TableRow.add f, exec_computeEffect 8 rfl hxy⟩,
    ⟨Laws.TableRow.sub f, exec_computeEffect 9 rfl hxy⟩⟩

/-- Settles O16: the operation codes 10 and 11. -/
theorem incAndDecCompute : Obligations.IncAndDecCompute := by
  intro f s x y hxy
  exact ⟨⟨Laws.TableRow.inc f, exec_computeEffect 10 rfl hxy⟩,
    ⟨Laws.TableRow.dec f, exec_computeEffect 11 rfl hxy⟩⟩

/-- Settles O8: the fault reports the PC and the reserved word itself, and no operand is read before it. -/
theorem reservedCodesRaiseInvalidOpcode : Obligations.ReservedCodesRaiseInvalidOpcode := by
  intro f s
  exact ⟨⟨s.pc, encode (.reserved1101 f), rfl⟩, ⟨s.pc, encode (.reserved1110 f), rfl⟩,
    ⟨s.pc, encode (.reserved1111 f), rfl⟩⟩

end Sys2Proof.Machine

/-! PROOFS. The jump arbiter: the unconditional jump, the jump beyond the ROM, and `sub` as a comparison. -/

namespace Sys2Proof.Machine

-- The unconditional jump -----------------------------------------------------------------------------

/-- The mask `111` has a bit in common with every sign class (R113, R114). -/
theorem taken_seven (c : SignClass) : taken 0b111 c = true := by
  cases c <;> rfl

/-- Without a target and without a `*A` source, a compute instruction changes the PC alone (R57, R85). -/
theorem compute_of_tgt_none (alu : Word → Word → Word) {f : Fields} (htgt : f.tgt = .none)
    (hsrc : f.src ≠ .starA) (s : State) :
    compute alu f s =
      s.setPc (if taken f.jmp (signClass (alu (aluInputs f s).1 (aluInputs f s).2))
        then s.reg .a else s.pc + 1) := by
  simp only [compute_eq, htgt, writeTarget, sourceValue_snd_of_ne_starA hsrc]

/-- The canonical unconditional jump: `and` without source, flags and target (R114). -/
theorem decodeWord_jump :
    decodeWord 0x0007 = .and ⟨.none, false, false, .none, 0b111⟩ := by
  decide

/-- Settles O21: the jump is taken whatever the result is, and the word `0x0007` has neither a target nor a
`*A` source. -/
theorem mask111JumpsUnconditionally : Obligations.Mask111JumpsUnconditionally := by
  refine ⟨fun p hp f s hjmp => ?_, fun s => ?_⟩
  · have htaken : taken f.jmp (signClass (p.2 (aluInputs f s).1 (aluInputs f s).2)) = true :=
      hjmp ▸ taken_seven _
    exact ⟨_, exec_eq_compute hp f s, compute_pc_of_taken p.2 f s htaken⟩
  · have hcompute := compute_of_tgt_none (fun x y => x &&& y)
      (f := ⟨.none, false, false, .none, 0b111⟩) rfl nofun s
    rw [taken_seven, if_pos rfl] at hcompute
    rw [decodeWord_jump]
    exact congrArg _ hcompute

-- The jump beyond the ROM ----------------------------------------------------------------------------

/-- Settles O22: the PC takes the whole of the `A` of after the write, the ROM is the same, and nothing is
fetched there. -/
theorem jumpBeyondRomHalts : Obligations.JumpBeyondRomHalts := by
  rintro p hp f s r goal rfl htaken hgoal hbeyond
  have hpc : (compute p.2 f s).pc = goal := by
    rw [compute_pc_of_taken p.2 f s htaken, compute_reg, hgoal]
  have hlen : (compute p.2 f s).rom.length ≤ (compute p.2 f s).pc.toNat := by
    rwa [compute_rom, hpc]
  exact ⟨_, exec_eq_compute hp f s, hpc, decide_eq_true hlen, step_of_length_le_pc hlen⟩

-- `sub` as a comparison ------------------------------------------------------------------------------

/-- Bit 15 is the sign of the two's complement reading (R106, G2). -/
theorem bit15_iff_toInt_neg (r : Word) : r.getLsbD 15 = true ↔ r.toInt < 0 := by
  rw [← decide_eq_true_iff (p := r.toInt < 0), ← BitVec.msb_eq_toInt, BitVec.msb_eq_getLsbD_last]

theorem signClass_eq_lt_iff (r : Word) : signClass r = .lt ↔ r.toInt < 0 := by
  rw [← bit15_iff_toInt_neg, signClass]
  split_ifs with hneg hzero
  · exact iff_of_true rfl hneg
  · exact iff_of_false nofun hneg
  · exact iff_of_false nofun hneg

/-- Zero is not negative, so the order of the tests in `signClass` does not matter here (R106). -/
theorem signClass_eq_eq_iff (r : Word) : signClass r = .eq ↔ r = 0 := by
  rw [signClass]
  split_ifs with hneg hzero
  · refine iff_of_false nofun ?_
    rintro rfl
    exact absurd hneg (by decide)
  · exact iff_of_true rfl hzero
  · exact iff_of_false nofun hzero

/-- A mask that selects one class alone jumps on that class alone (R110). -/
theorem taken_mask_iff (c d : SignClass) : taken c.mask d = true ↔ d = c := by
  cases c <;> cases d <;> decide

/-- A difference that fits in 16 bits is the signed reading of the result (R120). -/
theorem toInt_sub_of_fits {x y : Word} (hlo : -32768 ≤ x.toInt - y.toInt)
    (hhi : x.toInt - y.toInt ≤ 32767) : (x - y).toInt = x.toInt - y.toInt := by
  rw [BitVec.toInt_sub]
  exact Int.bmod_eq_of_le (by omega) (by omega)

/-- `sub` of a register and `A` without flags and target is a jump on the class of the difference, and
nothing else (R120). -/
theorem exec_sub_reg (q : Reg) (jmp : BitVec 3) (s : State) :
    exec (.sub { src := .reg q, sw := false, zx := false, tgt := .none, jmp := jmp }) s =
      .next (s.setPc
        (if taken jmp (signClass (s.reg q - s.reg .a)) then s.reg .a else s.pc + 1)) :=
  congrArg _ (compute_of_tgt_none (fun x y => x - y)
    (f := ⟨.reg q, false, false, .none, jmp⟩) rfl nofun s)

/-- Settles O27: the result is zero exactly for equal operands, and negative exactly for a smaller register
when the difference fits. -/
theorem subComparesWithinRange : Obligations.SubComparesWithinRange := by
  rintro q s x y rfl rfl
  refine ⟨⟨_, exec_sub_reg q SignClass.eq.mask s, ?_⟩,
    fun hlo hhi => ⟨_, exec_sub_reg q SignClass.lt.mask s, ?_⟩⟩
  · simp only [State.setPc_pc, taken_mask_iff, signClass_eq_eq_iff, sub_eq_zero]
  · simp only [State.setPc_pc, taken_mask_iff, signClass_eq_lt_iff, toInt_sub_of_fits hlo hhi, sub_neg]

end Sys2Proof.Machine

/-! PROOFS. The UART: the registers that ignore an access, and what sets and what clears the input overflow
bit. -/

namespace Sys2Proof.Machine

-- The ignored accesses -------------------------------------------------------------------------------

/-- Settles O37: the device's read of `U_OUT` gives zero and the device itself. -/
theorem uOutReadsZero : Obligations.UOutReadsZero := by
  intro s
  exact memRead_of_mmio (r := .uOut) rfl s

/-- Settles O40: the device's write of `U_IN` gives the device itself. -/
theorem uInWriteIsIgnored : Obligations.UInWriteIsIgnored := by
  intro v s
  exact memWrite_of_mmio (r := .uIn) rfl v s

-- The overflow bit and the device's accesses ---------------------------------------------------------

theorem mmio_eq_uOfl_iff (a : Word) : mmio a = some .uOfl ↔ a = 0x6004 := by
  constructor
  · intro h
    unfold mmio at h
    split_ifs at h <;> cases h
    assumption
  · rintro rfl
    rfl

/-- No device read changes the overflow bit (R137). -/
theorem Uart.read_io (p : Params) (r : UartReg) (u : Uart) : (u.read p r).2.io = u.io := by
  rw [Uart.read_snd]
  split <;> rfl

/-- After a device write the overflow bit is clear if it was before, or if the write left `RU` set in the
control Word (R135, R137). -/
theorem Uart.write_io_eq_false_iff (p : Params) (r : UartReg) (v : Word) (u : Uart) :
    (u.write p r v).io = false ↔
      u.io = false ∨ r = .uOfl ∧ (u.write p r v).ctl.getLsbD p.oflRu.val = true := by
  cases r
  case uOfl =>
    simp only [Uart.write, Uart.writeControl]
    split
    · next hru => simp only [hru, and_self, or_true]
    · next hru => simp only [hru, Bool.false_eq_true, and_false, or_false]
  case uOut =>
    simp only [Uart.write, Uart.enqueueOut]
    split <;> simp
  all_goals simp [Uart.write]

theorem memRead_io (a : Word) (s : State) : (memRead a s).2.uart.io = s.uart.io := by
  rcases memRead_cases a s with ⟨r, -, e⟩ | ⟨-, e⟩ <;> rw [e]
  exact Uart.read_io s.params r s.uart

/-- A store clears the overflow bit only at `U_OFL`, and there by `RU` (R135, R137). -/
theorem memWrite_io_eq_false_iff (a v : Word) (s : State) :
    (memWrite a v s).uart.io = false ↔
      s.uart.io = false
        ∨ a = 0x6004 ∧ (memWrite a v s).uart.ctl.getLsbD s.params.oflRu.val = true := by
  rw [← mmio_eq_uOfl_iff a]
  rcases memWrite_cases a v s with ⟨r, hr, e⟩ | ⟨hnone, e⟩ <;> rw [e]
  · rw [hr, Option.some_inj]
    exact Uart.write_io_eq_false_iff s.params r v s.uart
  · simp [hnone]

-- The overflow bit and the step ----------------------------------------------------------------------

theorem operandCode_eq_starA_iff (o : Operand) : operandCode o = 0b010 ↔ o = .starA := by
  constructor
  · intro h
    rw [← operandOfCode_operandCode o, h]
    rfl
  · rintro rfl
    rfl

theorem sourceValue_io (src : Operand) (a0 : Word) (s : State) :
    (sourceValue src a0 s).2.uart.io = s.uart.io := by
  rw [sourceValue_snd]
  split
  · exact memRead_io a0 s
  · rfl

/-- A compute instruction clears the overflow bit by its target write alone (R83 to R85, R137). -/
theorem compute_io_eq_false_iff (alu : Word → Word → Word) (f : Fields) (s : State) :
    (compute alu f s).uart.io = false ↔
      s.uart.io = false
        ∨ s.reg .a = 0x6004 ∧ (compute alu f s).uart.ctl.getLsbD s.params.oflRu.val = true
            ∧ f.tgt = .starA := by
  simp only [compute_eq, State.setPc_uart, writeTarget_uart]
  by_cases htgt : f.tgt = .starA
  · simp only [htgt, if_true, and_true, memWrite_io_eq_false_iff, sourceValue_io, sourceValue_params]
  · simp only [htgt, if_false, and_false, or_false, sourceValue_io]

/-- The machine is about to run a compute instruction with target `*A`, that is, a store (R52, R84). -/
def State.fetchesStore (s : State) : Prop :=
  ∃ w, s.rom[s.pc.toNat]? = some w ∧ w.getLsbD 15 = false ∧ w.extractLsb' 3 3 = 0b010

theorem State.fetchesStore_iff_of_fetch {s : State} {w : Word} (h : s.fetch = some w) :
    s.fetchesStore ↔ w.getLsbD 15 = false ∧ w.extractLsb' 3 3 = 0b010 := by
  rw [State.fetch_eq] at h
  simp only [State.fetchesStore, h, Option.some_inj, exists_eq_left']

theorem State.not_fetchesStore_of_fetch_none {s : State} (h : s.fetch = none) : ¬ s.fetchesStore := by
  rw [State.fetch_eq] at h
  rintro ⟨w, hw, -⟩
  cases h.symm.trans hw

/-- A Word that decodes to an immediate load is a format I word (R51). -/
theorem bit15_of_decodeWord_eq_ldi {w imm : Word} (h : decodeWord w = .ldi imm) :
    w.getLsbD 15 = true := by
  obtain ⟨hencode, -⟩ := encodeInvertsDecode w
  rw [← hencode, h]
  exact encodeFormatI_bit15 imm

/-- After a step the overflow bit is clear if it was before, or if the step was a store to `U_OFL` that left
`RU` set in the control Word; no step sets it (R137). -/
theorem step_io_eq_false_iff {s t : State} (h : step s = .next t) :
    t.uart.io = false ↔
      s.uart.io = false
        ∨ s.reg .a = 0x6004 ∧ t.uart.ctl.getLsbD s.params.oflRu.val = true ∧ s.fetchesStore := by
  rcases step_cases h with ⟨hnone, rfl⟩ | ⟨w, imm, hw, hldi, rfl⟩ | ⟨w, f, alu, hw, h15, htgt, rfl⟩
  · have hno := State.not_fetchesStore_of_fetch_none hnone
    simp only [hno, and_false, or_false]
  · have hno : ¬ s.fetchesStore := by
      rw [State.fetchesStore_iff_of_fetch hw, bit15_of_decodeWord_eq_ldi hldi]
      nofun
    simp only [hno, and_false, or_false, State.setPc_uart, State.setReg_uart]
  · have hw15 := bit15_of_encode_decodeWord h15
    rw [encode_decodeWord_tgt hw15] at htgt
    rw [compute_io_eq_false_iff, State.fetchesStore_iff_of_fetch hw, htgt, operandCode_eq_starA_iff,
      and_iff_right hw15]

-- The overflow bit and the host ----------------------------------------------------------------------

/-- Bytes pushed one after the other: those that fit are appended in order, and the overflow bit is set when
one does not (R138). -/
theorem Uart.foldl_push_eq (bytes : List Byte) {u : Uart} (h : u.inq.length ≤ 256) :
    bytes.foldl Uart.push u =
      { u with
        inq := (u.inq ++ bytes).take 256
        io := u.io || decide (256 < u.inq.length + bytes.length) } := by
  induction bytes generalizing u with
  | nil =>
    have hfits : ¬ 256 < u.inq.length := Nat.not_lt.mpr h
    simp [List.take_of_length_le h, hfits]
  | cons b bytes ih =>
    rw [List.foldl_cons]
    rcases Nat.lt_or_ge u.inq.length 256 with hroom | hfull
    · have hlen : (u.inq ++ [b]).length ≤ 256 := by
        rw [List.length_append]
        exact hroom
      rw [Uart.push_of_lt hroom, ih hlen]
      simp [Nat.add_assoc, Nat.add_comm 1]
    · have hlen : u.inq.length = 256 := Nat.le_antisymm h hfull
      rw [Uart.push_of_le hfull, ih (u := { u with io := true }) h]
      simp [hlen]

/-- Settles O43: the step by `step_io_eq_false_iff`, `feed_in` by `Uart.foldl_push_eq`; `drain_out` does not
write the bit, and a reset installs a fresh device. -/
theorem overflowBitIsSticky : Obligations.OverflowBitIsSticky := by
  refine ⟨fun s t h => ⟨fun hclear => ?_, fun hset => ?_⟩, fun bytes s h => ?_, fun s => rfl,
    fun p rom maps s h => ?_⟩
  · exact (step_io_eq_false_iff h).mpr (.inl hclear)
  · have hstep := step_io_eq_false_iff h
    rwa [hset, or_iff_right Bool.true_eq_false.mp] at hstep
  · exact congrArg Uart.io (Uart.foldl_push_eq bytes h)
  · obtain ⟨-, -, rfl⟩ := (hostReset_ok_iff p rom maps s).mp h
    rfl

end Sys2Proof.Machine

/-! PROOFS. Reset: where the first step fetches, and the ROM and the parameters until the next reset. -/

namespace Sys2Proof.Machine

-- The ROM and the parameters -------------------------------------------------------------------------

/-- No step changes the parameters (R19). -/
theorem step_params {s t : State} (h : step s = .next t) : t.params = s.params := by
  rcases step_cases h with ⟨-, rfl⟩ | ⟨w, imm, -, -, rfl⟩ | ⟨w, f, alu, -, -, -, rfl⟩
  · rfl
  · rfl
  · exact compute_params alu f s

/-- Of all events a reset alone installs a ROM (R170). -/
theorem perform_rom_params_of_ne_reset {e : Event} {s t : State}
    (he : ∀ rom maps, e ≠ .host (.reset rom maps)) (h : perform e s = some t) :
    t.rom = s.rom ∧ t.params = s.params := by
  cases e with
  | core =>
    rcases perform_core_cases h with hstep | rfl
    · obtain ⟨-, step_rom⟩ := storesNeverAffectFetch
      exact ⟨step_rom s t hstep, step_params hstep⟩
    · exact ⟨rfl, rfl⟩
  | host c =>
    rcases hostCall_cases h with ⟨rom, maps, rfl, -⟩ | ⟨bytes, -, rfl⟩ | ⟨-, rfl⟩
    · exact absurd rfl (he rom maps)
    · exact ⟨rfl, rfl⟩
    · exact ⟨rfl, rfl⟩

theorem interleave_rom_params_of_reset_not_mem {es : List Event} {s t : State}
    (hes : ∀ rom maps, Event.host (.reset rom maps) ∉ es) (h : interleave es s = some t) :
    t.rom = s.rom ∧ t.params = s.params := by
  refine interleave_preserves (P := fun u => u.rom = s.rom ∧ u.params = s.params) ?_ ⟨rfl, rfl⟩ h
  rintro e he u v ⟨hrom, hparams⟩ huv
  have hne : ∀ rom maps, e ≠ .host (.reset rom maps) := by
    rintro rom maps rfl
    exact hes rom maps he
  have ⟨hrom', hparams'⟩ := perform_rom_params_of_ne_reset hne huv
  exact ⟨hrom'.trans hrom, hparams'.trans hparams⟩

/-- Settles O58: a reset adds only RAM contents to the fresh state, and each event of the run after it
leaves ROM and parameters alone. -/
theorem resetInstallsTheWholeRom : Obligations.ResetInstallsTheWholeRom := by
  intro p rom maps s h
  obtain ⟨-, -, rfl⟩ := (hostReset_ok_iff p rom maps s).mp h
  exact ⟨State.fresh_rom p rom, State.fresh_params p rom,
    fun _ _ hes hrun => interleave_rom_params_of_reset_not_mem hes hrun⟩

-- The first step after a reset -----------------------------------------------------------------------

/-- Settles O51: the PC is 0, which is the end of an empty ROM. -/
theorem resetEntersAtRomZero : Obligations.ResetEntersAtRomZero := by
  intro p rom maps s h
  obtain ⟨-, -, rfl⟩ := (hostReset_ok_iff p rom maps s).mp h
  refine ⟨State.fresh_pc p rom, State.fetch_eq _, ?_⟩
  rintro rfl
  exact ⟨decide_eq_true (Nat.zero_le _), step_of_length_le_pc (Nat.zero_le _)⟩

end Sys2Proof.Machine

/-! PROOFS. Faults: the words with a reserved operation code, the steps that fault on them, and the faulted
machine. -/

namespace Sys2Proof.Machine

-- The reserved operation codes -----------------------------------------------------------------------

/-- The mask `0x0F00` leaves the operation code at its place (R52). -/
theorem and_opMask_eq (w : Word) :
    w &&& 0x0F00 = (w.extractLsb' 8 4).setWidth 16 <<< 8 := by
  ext i hi
  interval_cases i <;> simp [BitVec.getLsbD_eq_getElem]

theorem and_opMask_eq_iff (w : Word) (op : BitVec 4) :
    w &&& 0x0F00 = op.setWidth 16 <<< 8 ↔ w.extractLsb' 8 4 = op := by
  rw [and_opMask_eq]
  constructor
  · intro h
    bv_omega
  · rintro rfl
    rfl

theorem and_bit15_eq_zero_iff (w : Word) : w &&& 0x8000 = 0 ↔ w.getLsbD 15 = false := by
  have hmask : w &&& 0x8000 = if w.getLsbD 15 then 0x8000 else 0 := BitVec.and_twoPow w 15
  rw [hmask]
  split_ifs with hbit
  · exact iff_of_false (by decide) (by rw [hbit]; nofun)
  · exact iff_of_true rfl (Bool.eq_false_iff.mpr hbit)

/-- The bit patterns of R55 are those of format C with an operation code from 13 on. -/
theorem illegalWord_iff (w : Word) :
    IllegalWord w ↔ w.getLsbD 15 = false ∧ 13 ≤ (w.extractLsb' 8 4).toNat := by
  have hcodes : ∀ op : BitVec 4, 13 ≤ op.toNat ↔ op = 0b1101 ∨ op = 0b1110 ∨ op = 0b1111 := by decide
  have h1101 := and_opMask_eq_iff w 0b1101
  have h1110 := and_opMask_eq_iff w 0b1110
  have h1111 := and_opMask_eq_iff w 0b1111
  exact and_congr (and_bit15_eq_zero_iff w)
    ((or_congr h1101 (or_congr h1110 h1111)).trans (hcodes _).symm)

-- The steps that fault -------------------------------------------------------------------------------

theorem exec_instrOfOp_of_lt {op : BitVec 4} (h : op.toNat < 13) (f : Fields) (s : State) :
    ∃ t, exec (instrOfOp op f) s = .next t := by
  obtain ⟨n, hn⟩ := op
  change n < 13 at h
  interval_cases n <;> exact ⟨_, rfl⟩

theorem exec_instrOfOp_of_le {op : BitVec 4} (h : 13 ≤ op.toNat) (f : Fields) (s : State) :
    exec (instrOfOp op f) s = .fault (.invalidOpcode s.pc (encodeFormatC op f)) := by
  obtain ⟨n, hn⟩ := op
  change 13 ≤ n at h
  interval_cases n <;> rfl

theorem exec_decodeWord_of_illegalWord {w : Word} (h : IllegalWord w) (s : State) :
    exec (decodeWord w) s = .fault (.invalidOpcode s.pc w) := by
  obtain ⟨h15, hop⟩ := (illegalWord_iff w).mp h
  rw [decodeWord_of_bit15_eq_false h15, exec_instrOfOp_of_le hop, encodeFormatC_decodeFields h15]

/-- A Word that is not illegal is an immediate load or one of the thirteen compute instructions. -/
theorem exec_decodeWord_of_not_illegalWord {w : Word} (h : ¬ IllegalWord w) (s : State) :
    ∃ t, exec (decodeWord w) s = .next t := by
  cases h15 : w.getLsbD 15 with
  | true =>
    rw [decodeWord_of_bit15 h15]
    exact ⟨_, rfl⟩
  | false =>
    have hop : (w.extractLsb' 8 4).toNat < 13 :=
      Nat.lt_of_not_le fun hle => h ((illegalWord_iff w).mpr ⟨h15, hle⟩)
    rw [decodeWord_of_bit15_eq_false h15]
    exact exec_instrOfOp_of_lt hop _ s

/-- Executing a Word faults exactly when it is illegal, and then reports the PC and the Word (R55, R150). -/
theorem exec_decodeWord_eq_fault_iff (w : Word) (s : State) (p : Fault) :
    exec (decodeWord w) s = .fault p ↔ IllegalWord w ∧ p = .invalidOpcode s.pc w := by
  by_cases hw : IllegalWord w
  · rw [exec_decodeWord_of_illegalWord hw, Host.Outcome.fault.injEq, and_iff_right hw, eq_comm]
  · obtain ⟨t, ht⟩ := exec_decodeWord_of_not_illegalWord hw s
    rw [ht]
    exact iff_of_false nofun fun ⟨hill, _⟩ => hw hill

/-- Settles O6: a step that fetches nothing does not fault, and any other executes the Word it fetches. -/
theorem stepFaultsExactlyOnIllegalWords : Obligations.StepFaultsExactlyOnIllegalWords := by
  intro s p
  rw [← State.fetch_eq]
  cases hfetch : s.fetch with
  | none =>
    rw [step_of_fetch_none hfetch]
    exact iff_of_false nofun nofun
  | some w =>
    rw [step_of_fetch hfetch, exec_decodeWord_eq_fault_iff]
    simp only [Option.some_inj, exists_eq_left']

-- The faulted machine --------------------------------------------------------------------------------

theorem State.faulted_iff (s : State) :
    s.faulted = true ↔ ∃ w, s.rom[s.pc.toNat]? = some w ∧ IllegalWord w := by
  rw [← State.fetch_eq]
  cases hfetch : s.fetch with
  | none => simp [State.faulted, hfetch]
  | some w => simp [State.faulted, hfetch, illegalWord_iff]

theorem State.faulted_iff_step_eq_fault (s : State) :
    s.faulted = true ↔ ∃ p, step s = .fault p := by
  rw [State.faulted_iff]
  constructor
  · rintro ⟨w, hw, hill⟩
    exact ⟨_, (stepFaultsExactlyOnIllegalWords s _).mpr ⟨w, hw, hill, rfl⟩⟩
  · rintro ⟨p, hp⟩
    obtain ⟨w, hw, hill, -⟩ := (stepFaultsExactlyOnIllegalWords s p).mp hp
    exact ⟨w, hw, hill⟩

/-- A machine that finds a Word at its PC is not halted (R16). -/
theorem State.halted_eq_false_of_rom_at_pc {s : State} {w : Word} (h : s.rom[s.pc.toNat]? = some w) :
    s.halted = false := by
  obtain ⟨hlt, -⟩ := List.getElem?_eq_some_iff.mp h
  exact decide_eq_false (Nat.not_le.mpr hlt)

/-- A state that an event leaves as it is, any number of the same events leaves as it is. -/
theorem interleave_replicate_of_perform_eq_self {e : Event} {s : State} (h : perform e s = some s)
    (k : Nat) : interleave (List.replicate k e) s = some s := by
  induction k with
  | zero => rfl
  | succ k ih => exact interleave_cons_eq_some_iff.mpr ⟨s, h, ih⟩

/-- Settles O9: by O6, and since a fault leaves the state as it is (R155, R157). -/
theorem faultedExactlyWhenTheStepFaults : Obligations.FaultedExactlyWhenTheStepFaults := by
  intro s
  refine ⟨s.faulted_iff_step_eq_fault, fun h => ⟨?_, ?_⟩⟩
  · obtain ⟨w, hw, -⟩ := s.faulted_iff.mp h
    exact State.halted_eq_false_of_rom_at_pc hw
  · obtain ⟨p, hp⟩ := s.faulted_iff_step_eq_fault.mp h
    have hself : perform .core s = some s := by rw [perform, hp]
    exact interleave_replicate_of_perform_eq_self hself

end Sys2Proof.Machine

/-! PROOFS. Compute instructions: the rotates and the arithmetic shift, the source read that no flag
suppresses, and the sign class with the conditions of the eight masks. -/

namespace Sys2Proof.Machine

-- The rotates and the arithmetic shift ---------------------------------------------------------------

/-- The arithmetic shift is the floor of half the signed reading (R103). -/
theorem ofInt_toInt_div_two_eq (x : Word) :
    BitVec.ofInt 16 (x.toInt / 2) = x >>> 1 ||| x &&& 0x8000 := by
  rw [← sshiftRight_one_eq, BitVec.sshiftRight, Int.shiftRight_eq_div_pow]
  rfl

/-- Settles O14: the operation codes 6, 7 and 12. -/
theorem rotatesAndArithmeticShiftCompute : Obligations.RotatesAndArithmeticShiftCompute := by
  intro f s x y hxy
  obtain ⟨t, hexec, heffect⟩ := exec_computeEffect 12 rfl hxy
  refine ⟨exec_computeEffect 6 rfl hxy, exec_computeEffect 7 rfl hxy, t, hexec, ?_, heffect⟩
  rwa [ofInt_toInt_div_two_eq]

-- The source read ------------------------------------------------------------------------------------

/-- With source `*A` at `U_IN` the head of `uart.in` is lost; a write to `U_IN` as well is ignored (R130,
R131). -/
theorem uartAfter_of_starA_uIn {f : Fields} {s : State} (hsrc : f.src = .starA)
    (ha : s.reg .a = 0x6002) (r : Word) :
    uartAfter f r s = { s.uart with inq := s.uart.inq.tail } := by
  simp only [uartAfter, hsrc, ha, if_true, uInWriteIsIgnored r _, ite_self, memRead_snd]

theorem uartAfter_of_ne_starA {f : Fields} (hsrc : f.src ≠ .starA) (htgt : f.tgt ≠ .starA) (r : Word)
    (s : State) : uartAfter f r s = s.uart := by
  simp only [uartAfter, if_neg hsrc, if_neg htgt]

/-- Settles O19: the UART sees the accesses of `uartAfter`, which do not depend on `zx`, `sw`, `jmp` or the
operation. -/
theorem sourceReadHappensWhateverTheFlags : Obligations.SourceReadHappensWhateverTheFlags := by
  intro p hp f s
  refine ⟨_, exec_eq_compute hp f s, fun hsrc ha => ?_, fun hsrc htgt => ?_⟩
  · rw [compute_uart, uartAfter_of_starA_uIn hsrc ha]
  · rw [compute_uart, uartAfter_of_ne_starA hsrc htgt]

-- The sign class and the masks -----------------------------------------------------------------------

theorem signClass_eq_eq_iff_toInt (r : Word) : signClass r = .eq ↔ r.toInt = 0 := by
  rw [signClass_eq_eq_iff, ← BitVec.toInt_inj]
  rfl

/-- The class `gt` is what the other two leave, and so is a positive number. -/
theorem signClass_eq_gt_iff (r : Word) : signClass r = .gt ↔ 0 < r.toInt := by
  have hgt : ∀ c : SignClass, c = .gt ↔ ¬ c = .lt ∧ ¬ c = .eq := by
    rintro ⟨⟩ <;> decide
  rw [hgt, signClass_eq_lt_iff, signClass_eq_eq_iff_toInt]
  omega

/-- Settles O25, class by class. -/
theorem signClassIsTheSign : Obligations.SignClassIsTheSign := by
  intro r
  exact ⟨signClass_eq_lt_iff r, signClass_eq_eq_iff_toInt r, signClass_eq_gt_iff r⟩

/-- Settles O26: for each class the sign of the result decides all eight conditions. -/
theorem jumpMaskConditions : Obligations.JumpMaskConditions := by
  intro r
  cases hclass : signClass r with
  | lt =>
    have hneg := (signClass_eq_lt_iff r).mp hclass
    simp [taken, SignClass.mask, hneg, hneg.le, hneg.ne, hneg.not_gt, hneg.not_ge]
  | eq =>
    have hzero := (signClass_eq_eq_iff_toInt r).mp hclass
    simp [taken, SignClass.mask, hzero]
  | gt =>
    have hpos := (signClass_eq_gt_iff r).mp hclass
    simp [taken, SignClass.mask, hpos, hpos.le, hpos.ne', hpos.not_gt, hpos.not_ge]

end Sys2Proof.Machine

/-! PROOFS. The UART: what an access of each register reads and changes, the status bits, the bytes that
`feed_in` keeps, and reset. -/

namespace Sys2Proof.Machine

-- The data registers ---------------------------------------------------------------------------------

/-- Settles O36: the device's read and write of `U_BAUD`. -/
theorem baudRegisterReadsAndStores : Obligations.BaudRegisterReadsAndStores := by
  intro v s
  exact ⟨memRead_of_mmio (r := .uBaud) rfl s, memWrite_of_mmio (r := .uBaud) rfl v s⟩

/-- A write to `U_OUT` with the FIFO full is lost (R129). -/
theorem memWrite_uOut_of_le {s : State} (v : Word) (h : 256 ≤ s.uart.outq.length) :
    memWrite 0x6001 v s = s := by
  rw [memWrite_of_mmio (r := .uOut) rfl]
  simp only [Uart.write, Uart.enqueueOut, if_neg (Nat.not_lt.mpr h)]

/-- Settles O38: room or none. -/
theorem uOutWriteEnqueuesLowByte : Obligations.UOutWriteEnqueuesLowByte := by
  intro v s
  exact ⟨memWrite_uOut_of_lt v, memWrite_uOut_of_le v⟩

theorem memRead_uIn_of_nil {s : State} (h : s.uart.inq = []) : memRead 0x6002 s = (0x0000, s) := by
  rw [memRead_of_mmio (r := .uIn) rfl]
  simp only [Uart.read, h]

/-- Settles O39: the FIFO empty, or with a head. -/
theorem uInReadDequeues : Obligations.UInReadDequeues := by
  intro s
  exact ⟨memRead_uIn_of_nil, fun _ _ => memRead_uIn_of_cons⟩

-- The status register --------------------------------------------------------------------------------

theorem bitAt_getLsbD (b : Bool) (i j : Fin 16) :
    (bitAt b i).getLsbD j.val = (decide (j = i) && b) := by
  cases b with
  | false => simp [bitAt]
  | true =>
    have hbit : bitAt true i = BitVec.twoPow 16 i.val := rfl
    rw [hbit, BitVec.getLsbD_twoPow]
    simp [Fin.ext_iff, eq_comm]

/-- Each bit of `U_IFL` is the disjunction of the status bits whose position it is (R132). -/
theorem Uart.status_getLsbD (p : Params) (u : Uart) (i : Fin 16) :
    (u.status p).getLsbD i.val =
      ((decide (i = p.iflIo) && u.io) || (decide (i = p.iflDa) && decide (u.inq ≠ []))
        || (decide (i = p.iflOr) && decide (u.outq.length < 256))) := by
  simp only [Uart.status, BitVec.getLsbD_or, bitAt_getLsbD, List.length_pos_iff]

/-- The bit positions of `U_IFL` are distinct (D10). -/
theorem Params.ifl_ne_of_wellFormed {p : Params} (h : p.wellFormed = true) :
    p.iflIo ≠ p.iflDa ∧ p.iflIo ≠ p.iflOr ∧ p.iflDa ≠ p.iflOr := by
  rw [Params.wellFormed, Bool.and_eq_true] at h
  obtain ⟨hifl, -⟩ := h
  exact of_decide_eq_true hifl

/-- Settles O41: the positions are distinct, so at most one status bit stands at each. -/
theorem statusRegisterBits : Obligations.StatusRegisterBits := by
  intro s hparams
  have hread := memRead_of_mmio (a := 0x6003) (r := .uIfl) rfl s
  refine ⟨fun i => ?_, congrArg Prod.snd hread, fun v => memWrite_of_mmio (r := .uIfl) rfl v s⟩
  obtain ⟨hioDa, hioOr, hdaOr⟩ := Params.ifl_ne_of_wellFormed hparams
  rw [hread]
  refine (Uart.status_getLsbD s.params s.uart i).trans ?_
  split_ifs with hio hda hor
  · subst hio
    simp [hioDa, hioOr]
  · subst hda
    simp [hio, hdaOr]
  · subst hor
    simp [hio, hda]
  · simp [hio, hda, hor]

-- The control register -------------------------------------------------------------------------------

/-- Settles O42: the device's write of `U_OFL`, with `RU` set and clear. -/
theorem controlRegisterStoresAndResets : Obligations.ControlRegisterStoresAndResets := by
  intro v s
  refine ⟨memRead_of_mmio (r := .uOfl) rfl s, fun hru => ?_, fun hru => ?_⟩
  · rw [memWrite_of_mmio (r := .uOfl) rfl, Uart.write, Uart.writeControl, if_pos hru]
  · rw [memWrite_of_mmio (r := .uOfl) rfl, Uart.write, Uart.writeControl,
      if_neg (Bool.eq_false_iff.mp hru)]

-- The host's calls -----------------------------------------------------------------------------------

/-- Settles O44: the bytes are pushed one after the other. -/
theorem feedInKeepsWhatFits : Obligations.FeedInKeepsWhatFits := by
  intro bytes s h
  rw [feedIn, Uart.foldl_push_eq bytes h]

theorem romFits_iff (rom : List Word) : romFits rom = true ↔ rom.length ≤ 65535 :=
  decide_eq_true_iff

theorem Mapping.inRange_iff (romLen : Nat) (m : Mapping) :
    m.inRange romLen = true ↔
      m.romAddr.toNat + m.length.toNat ≤ romLen ∧ m.ramAddr.toNat + m.length.toNat ≤ 65536 := by
  rw [Mapping.inRange, Bool.and_eq_true, decide_eq_true_iff, decide_eq_true_iff]

/-- Settles O49: a reset answers a state when its checks of ROM and mappings hold, and then some state. -/
theorem resetSucceedsExactlyInRange : Obligations.ResetSucceedsExactlyInRange := by
  intro p rom maps
  simp only [hostReset_ok_iff, exists_and_left, exists_eq, and_true, List.all_eq_true, romFits_iff,
    Mapping.inRange_iff]

/-- Settles O50: a reset adds only RAM contents to the fresh state. -/
theorem resetEmptiesTheUart : Obligations.ResetEmptiesTheUart := by
  intro p rom maps s h
  obtain ⟨-, -, rfl⟩ := (hostReset_ok_iff p rom maps s).mp h
  exact State.fresh_uart p rom

end Sys2Proof.Machine
